-- ==== Sys2Proof/Word.lean ====
section
/-! DEFINITION. The word types of the Genesis EA engine (00_scope.md R7, 30_encoding.md R53). -/

namespace Sys2Proof

/-- A 32-bit register, address or literal value: the spec's u32 (00_scope.md R9). -/
abbrev Word := BitVec 32

/-- A 64-bit micro-instruction word (30_encoding.md R53, R57). -/
abbrev UopWord := BitVec 64

/-- An 80-bit descriptor word (30_encoding.md R53, R61). -/
abbrev DescWord := BitVec 80

end Sys2Proof
end

