-- ==== Sys2Proof/Syntax.lean ====
section
/-! DEFINITION. The instructions of the Genesis EA engine: six micro-operations and sixteen descriptor
kinds, one constructor of `Instr` per row of spec/opcode_table.json; and the host's commands. -/

namespace Sys2Proof

/-- A data or address register number, 0 to 7 (10_state.md R18, R19). -/
abbrev RegNum := Fin 8

/-- A 6-bit operand-reference code, by what it names (30_encoding.md R54). Whether a `tmp` exists
depends on the instance's N_TMP and is checked when the micro-instruction runs (R55). -/
inductive RefCode where
  | d (n : RegNum)
  | a (n : RegNum)
  | pc
  | ccr
  | in0
  | in1
  | ioBuffer
  | tmp (k : Fin 16)
  /-- Code 0x30: the word's LIT field as a value. -/
  | imm
  /-- A reserved code, 0x15 to 0x1F or 0x31 to 0x3F. -/
  | reserved (c : BitVec 6)
deriving DecidableEq, Repr

/-- An operand size (30_encoding.md R56). -/
inductive OperandSize where
  | byte
  | word
  | long
deriving DecidableEq, Repr

/-- The operand fields of a micro-instruction word (30_encoding.md R57). Every field is kept, also
those an operation ignores (R58), because a fault records the whole word (60_exceptions.md R123). -/
structure Uop where
  ra  : RefCode
  rb  : RefCode
  sz  : BitVec 2
  rsv : BitVec 15
  lit : Word
deriving DecidableEq, Repr

/-- The index operand of an indexed descriptor, `{0b00, XA, XN}` (30_encoding.md R61). -/
inductive IndexReg where
  | d (n : RegNum)
  | a (n : RegNum)
deriving DecidableEq, Repr

/-- The instructions. A descriptor carries exactly the fields its kind uses (30_encoding.md R62). -/
inductive Instr where
  /-- `Zero(r)`, 41_micro_instructions.md R81. -/
  | zero (u : Uop)
  /-- `Set(r, x)`, R82. -/
  | set (u : Uop)
  /-- `Mov(dst, src)`, R83. -/
  | mov (u : Uop)
  /-- `Add(r, x)`, R84. -/
  | add (u : Uop)
  /-- `Scale(r, size)`, R85. -/
  | scale (u : Uop)
  /-- `RequestMem(a)`, R86. -/
  | reqmem (u : Uop)
  /-- `Dn`, 42_addressing_modes.md R103. -/
  | dreg (n : RegNum)
  /-- `An`, R104. -/
  | areg (n : RegNum)
  /-- `(An)`, R105. -/
  | aind (n : RegNum)
  /-- `(An)+.s`, R106. -/
  | apost (n : RegNum) (sz : OperandSize)
  /-- `-(An).s`, R107. -/
  | apre (n : RegNum) (sz : OperandSize)
  /-- `(d,An)`, R108. -/
  | adisp (n : RegNum) (d1 : Word)
  /-- `(d,An,Xi*k)`, R109. -/
  | aidx (n : RegNum) (d1 : Word) (x : IndexReg) (sc : OperandSize)
  /-- `([bd,An],Xi*k,od)`, R110. -/
  | amipost (n : RegNum) (d1 : Word) (x : IndexReg) (sc : OperandSize) (d2 : Word)
  /-- `([bd,An,Xi*k],od)`, R111. -/
  | amipre (n : RegNum) (d1 : Word) (x : IndexReg) (sc : OperandSize) (d2 : Word)
  /-- `(d,PC)`, R113. -/
  | pcdisp (d1 : Word)
  /-- `(d,PC,Xi*k)`, R114. -/
  | pcidx (d1 : Word) (x : IndexReg) (sc : OperandSize)
  /-- `([bd,PC],Xi*k,od)`, R115. -/
  | pcmipost (d1 : Word) (x : IndexReg) (sc : OperandSize) (d2 : Word)
  /-- `([bd,PC,Xi*k],od)`, R116. -/
  | pcmipre (d1 : Word) (x : IndexReg) (sc : OperandSize) (d2 : Word)
  /-- `(a).W`, R117. -/
  | absw (d1 : Word)
  /-- `(a).L`, R118. -/
  | absl (d1 : Word)
  /-- `#v`, R119. -/
  | imm (d1 : Word)
deriving DecidableEq, Repr

/-! ## What the host gives -/

/-- The host commands (41_micro_instructions.md R97). -/
inductive Command where
  /-- `lower(e)`, 42_addressing_modes.md R98. -/
  | lower (e : DescWord)
  /-- `resume(v)`, 41_micro_instructions.md R93. -/
  | resume (v : Word)
  /-- `fail()`, R94. -/
  | fail
  /-- `flush()`, R95. -/
  | flush
  /-- `ack_fault()`, R96. -/
  | ackFault
  /-- `host_read(c)`, 40_register_file.md R76. -/
  | hostRead (c : BitVec 6)
  /-- `host_write(c, v)`, R76. -/
  | hostWrite (c : BitVec 6) (v : Word)
  /-- `status_read(SEL)`, 10_state.md R30. -/
  | statusRead (sel : BitVec 2)
  /-- `reset()`, 70_reset_and_hazards.md R139. -/
  | reset
deriving DecidableEq, Repr

end Sys2Proof
end

