-- ==== Sys2Proof/Config.lean ====
section
/-! DEFINITION. What an implementation of the Genesis EA engine fixes (00_scope.md R8), and the free
values the spec leaves open (93_implementation_defined.md I16, I17, I21). -/

namespace Sys2Proof.Config

/-- Bounds of the open parameter `N_TMP` (00_scope.md R8, R24). -/
def nTmpMin : Nat := 1
def nTmpMax : Nat := 16

/-- Bounds of the parameter `Q_DEPTH` (00_scope.md R8). -/
def qDepthMin : Nat := 10
def qDepthMax : Nat := 255

/-- `Q_DEPTH` of the instance `State.reset` describes: the spec's default (00_scope.md R8; log entry 2). -/
def resetQDepth : Nat := 16

/-- `N_TMP` of the instance `State.reset` describes. DESIGN CHOICE (log entry 1): the value the
vectors of 95_test_vectors.md assume; the parameter itself is open, 1 to 16. -/
def resetNTmp : Nat := 4

/-- The `k`-th free 32-bit draw: nothing constrains it (10_state.md R28, R32; log entries 4 and 5). -/
opaque freeWord : Nat → Word

/-- The `k`-th free 8-bit draw, for CCR after the reset command (10_state.md R32; log entry 4). -/
opaque freeByte : Nat → BitVec 8

/-- The `k`-th free burst: the commands the host gives before the executor's next turn, any finite
number of any commands (41_micro_instructions.md R89; log entry 6). -/
opaque freeCommands : Nat → List Command

end Sys2Proof.Config
end

