-- ==== Sys2Proof/Machine/State.lean ====
section
/-! DEFINITION. The state of one block instance (10_state.md R15 to R33), the transitions still to come
and the reasons a step stops. -/

namespace Sys2Proof.Machine

/-- The executor's control state `ST` (10_state.md R27). -/
inductive ExecState where
  | idle
  | running
  | suspended
  | faulted
deriving DecidableEq, Repr

/-- The recorded fault `FCODE`; codes 5 to 7 are never recorded (60_exceptions.md R123). -/
inductive FaultCode where
  | none
  | fetchFail
  | immWrite
  | badRef
  | badUop
deriving DecidableEq, Repr

/-- A response to a host command (60_exceptions.md R130). -/
inductive Response where
  | ok
  | descReserved
  | queueFull
  | faulted
  | busy
  | badRef
  | notSuspended
  | notFaulted
deriving DecidableEq, Repr

/-- What the host gets back: the response and, from an accepted read, the value (40_register_file.md
R76, 10_state.md R30). -/
structure Reply where
  response : Response
  value    : Option Word
deriving DecidableEq, Repr

/-- Whose transition comes next: the executor's, or the host's with a command. The model's own: any
list of turns begins some interleaving of 41_micro_instructions.md R89 (log entry 6). -/
inductive Turn where
  | executor
  | host (c : Command)
deriving DecidableEq, Repr

/-- The register file: exactly the cells of 10_state.md R15. `tmp` has N_TMP entries. -/
structure RegFile where
  d        : Vector Word 8
  a        : Vector Word 8
  pc       : Word
  ccr      : BitVec 8
  in0      : Word
  in1      : Word
  ioBuffer : Word
  tmp      : List Word
deriving DecidableEq, Repr

/-- One block instance. -/
structure State where
  /-- The register file, R15. -/
  rf       : RegFile
  /-- The micro-instruction queue `Q`, head first, R26. -/
  q        : List UopWord
  /-- `ST`, R27. -/
  st       : ExecState
  /-- `PEND_ADDR`, R28: what the host sees of it outside Suspended is a free value (log entry 5). -/
  pendAddr : Word
  /-- `FCODE`, R29. -/
  fcode    : FaultCode
  /-- `FINFO`, R29. -/
  finfo    : BitVec 64
  /-- The parameter `Q_DEPTH` of this instance, 00_scope.md R8: no transition changes it (log entry 2). -/
  qDepth   : Nat
  /-- The model's own: the turns already chosen, first one first; what comes after them is free (log
  entry 6). -/
  turns    : List Turn
  /-- The model's own: the reply to the last host command (log entry 8). -/
  reply    : Option Reply
  /-- The model's own: how many free draws have been taken (log entries 4, 5 and 6). -/
  draws    : Nat
deriving DecidableEq, Repr

/-- The parameter `N_TMP` of this instance: how many temporaries it has (00_scope.md R8, 10_state.md R24). -/
def State.nTmp (s : State) : Nat := s.rf.tmp.length

/-- Reasons the machine stops. None is a fault of the spec's: those are next states. -/
inductive Fault where
  /-- Raised by Machine/Fetch.lean's executor turn when `ST` = Running and `Q` is empty, a state that
  10_state.md R27 excludes and no run reaches (log entry 9). Safe: the machine stops where the spec
  gives no transition. -/
  | runningWithEmptyQueue
deriving DecidableEq, Repr

/-- Reasons an instruction has no meaning. -/
inductive Refusal where
  /-- Raised by Machine/Dispatch.lean for an instruction without a meaning; no arm is left so. Safe. -/
  | notModelled (mnemonic : String)
deriving DecidableEq, Repr

/-- The register file `State.reset` names. DESIGN CHOICE (log entry 3): 0 in every cell, where
10_state.md R32 leaves each unspecified. -/
def RegFile.reset : RegFile where
  d := Vector.replicate 8 0
  a := Vector.replicate 8 0
  pc := 0
  ccr := 0
  in0 := 0
  in1 := 0
  ioBuffer := 0
  tmp := List.replicate Config.resetNTmp 0

/-- Right after reset (10_state.md R32, R33): Idle, empty queue, no fault recorded, no turn given yet. -/
def State.reset : State where
  rf := RegFile.reset
  q := []
  st := .idle
  pendAddr := 0
  fcode := .none
  finfo := 0
  qDepth := Config.resetQDepth
  turns := []
  reply := none
  draws := 0

end Sys2Proof.Machine
end

