-- ==== Sys2Proof/Machine/Flags.lean ====
section
/-! DEFINITION. The condition-code byte's ports and the status words. No micro-operation computes a
flag (41_micro_instructions.md R80): CCR changes only as a named destination. -/

namespace Sys2Proof.Machine

/-- Reading CCR zero-extends it to 32 bits (40_register_file.md R72). -/
def ccrRead (b : BitVec 8) : Word := b.setWidth 32

/-- Writing CCR keeps bits [7:0] and drops the rest (40_register_file.md R72). -/
def ccrWrite (v : Word) : BitVec 8 := v.setWidth 8

/-- The 2-bit code of `ST` (10_state.md R27). -/
def ExecState.code : ExecState → BitVec 2
  | .idle => 0#2
  | .running => 1#2
  | .suspended => 2#2
  | .faulted => 3#2

/-- The 3-bit `FCODE` (60_exceptions.md R123). -/
def FaultCode.code : FaultCode → BitVec 3
  | .none => 0#3
  | .fetchFail => 1#3
  | .immWrite => 2#3
  | .badRef => 3#3
  | .badUop => 4#3

/-- The response codes of 60_exceptions.md R130. -/
def Response.code : Response → Nat
  | .ok => 0
  | .descReserved => 1
  | .queueFull => 2
  | .faulted => 3
  | .busy => 4
  | .badRef => 5
  | .notSuspended => 6
  | .notFaulted => 7

/-- `STATUS`: reserved [31:16], QCOUNT [15:8], reserved [7], FCODE [6:4], reserved [3:2], ST [1:0]
(10_state.md R30). -/
def statusWord (s : State) : Word :=
  0#16 ++ BitVec.ofNat 8 s.q.length ++ 0#1 ++ s.fcode.code ++ 0#2 ++ s.st.code

/-- `FINFO_LO` and `FINFO_HI` (10_state.md R30). -/
def finfoLo (s : State) : Word := s.finfo.extractLsb' 0 32
def finfoHi (s : State) : Word := s.finfo.extractLsb' 32 32

end Sys2Proof.Machine
end

