-- ==== Sys2Proof/WellFormed.lean ====
section
/-! DEFINITION. Which terms of `Instr` stand for an encoding. The types already bound every register
number, size and scale; what is left is that a reference code called reserved is one (30_encoding.md R54). -/

namespace Sys2Proof

/-- The reserved reference codes 0x15 to 0x1F and 0x31 to 0x3F (30_encoding.md R54). -/
def RefCode.isReservedCode (c : BitVec 6) : Bool :=
  (0x15#6 ≤ c && c ≤ 0x1F#6) || 0x31#6 ≤ c

def RefCode.wf : RefCode → Bool
  | .reserved c => RefCode.isReservedCode c
  | _ => true

/-- Both reference fields of a word are codes of R54. -/
def Uop.wf (u : Uop) : Bool := u.ra.wf && u.rb.wf

def Instr.wf : Instr → Bool
  | .zero u | .set u | .mov u | .add u | .scale u | .reqmem u => u.wf
  | .dreg _ | .areg _ | .aind _ | .apost _ _ | .apre _ _ | .adisp _ _ | .aidx _ _ _ _
  | .amipost _ _ _ _ _ | .amipre _ _ _ _ _ | .pcdisp _ | .pcidx _ _ _
  | .pcmipost _ _ _ _ | .pcmipre _ _ _ _ | .absw _ | .absl _ | .imm _ => true

abbrev Instr.WellFormed (i : Instr) : Prop := i.wf = true

end Sys2Proof
end

