-- ==== Sys2Proof/Decode.lean ====
section
/-! DEFINITION. The decoder, total on every 64-bit and every 80-bit word, and the encoder
(30_encoding.md R54 to R65). A word has no byte order (R53), so both work on whole words. -/

namespace Sys2Proof

/-- Why a word is not an instruction (30_encoding.md R63, R65). -/
inductive Reject where
  /-- OP is 110 or 111 (R58). -/
  | reservedOp
  /-- KIND is 16 to 31 (R62). -/
  | reservedKind
  /-- SZ is 11 in APOST or APRE (R63). -/
  | reservedSize
  /-- SC is 11 in an indexed kind (R63). -/
  | reservedScale
deriving DecidableEq, Repr

/-- The operation a micro-instruction's OP field selects (30_encoding.md R58). -/
inductive OpCode where
  | zero
  | set
  | mov
  | add
  | scale
  | reqmem
deriving DecidableEq, Repr

/-- The OP codes of 30_encoding.md R58. -/
def OpCode.bits : OpCode → BitVec 3
  | .zero => 0b000#3
  | .set => 0b001#3
  | .mov => 0b010#3
  | .add => 0b011#3
  | .scale => 0b100#3
  | .reqmem => 0b101#3

/-- The instruction of an operation and its operand fields. -/
def OpCode.instr : OpCode → Uop → Instr
  | .zero => .zero
  | .set => .set
  | .mov => .mov
  | .add => .add
  | .scale => .scale
  | .reqmem => .reqmem

/-- A 3-bit field as a register number: every value is one (40_register_file.md R73). -/
def regOfBits (b : BitVec 3) : RegNum := b.toFin

def regBits (n : RegNum) : BitVec 3 := BitVec.ofFin n

/-- The reference a 6-bit code names (30_encoding.md R54). -/
def RefCode.ofBits (c : BitVec 6) : RefCode :=
  if c.extractLsb' 3 3 = 0b000#3 then .d (regOfBits (c.extractLsb' 0 3))
  else if c.extractLsb' 3 3 = 0b001#3 then .a (regOfBits (c.extractLsb' 0 3))
  else if c = 0x10#6 then .pc
  else if c = 0x11#6 then .ccr
  else if c = 0x12#6 then .in0
  else if c = 0x13#6 then .in1
  else if c = 0x14#6 then .ioBuffer
  else if c.extractLsb' 4 2 = 0b10#2 then .tmp (c.extractLsb' 0 4).toFin
  else if c = 0x30#6 then .imm
  else .reserved c

/-- The 6-bit code of a reference (30_encoding.md R54). -/
def RefCode.bits : RefCode → BitVec 6
  | .d n => 0b000#3 ++ regBits n
  | .a n => 0b001#3 ++ regBits n
  | .pc => 0x10#6
  | .ccr => 0x11#6
  | .in0 => 0x12#6
  | .in1 => 0x13#6
  | .ioBuffer => 0x14#6
  | .tmp k => 0b10#2 ++ (BitVec.ofFin k : BitVec 4)
  | .imm => 0x30#6
  | .reserved c => c

/-- The size a 2-bit code names; 11 names none (30_encoding.md R56). -/
def OperandSize.ofCode? (c : BitVec 2) : Option OperandSize :=
  if c = 0b00#2 then some .byte
  else if c = 0b01#2 then some .word
  else if c = 0b10#2 then some .long
  else none

def OperandSize.code : OperandSize → BitVec 2
  | .byte => 0b00#2
  | .word => 0b01#2
  | .long => 0b10#2

/-- The reference code `{0b00, XA, XN}` of an index operand (30_encoding.md R61). -/
def IndexReg.ref : IndexReg → RefCode
  | .d n => .d n
  | .a n => .a n

/-! ## Micro-instruction words -/

/-- The operand fields of a word (30_encoding.md R57). -/
def uopFields (w : UopWord) : Uop where
  ra := RefCode.ofBits (w.extractLsb' 55 6)
  rb := RefCode.ofBits (w.extractLsb' 49 6)
  sz := w.extractLsb' 47 2
  rsv := w.extractLsb' 32 15
  lit := w.extractLsb' 0 32

/-- The operation of a word: OP 110 and 111 have none (30_encoding.md R58). -/
def opOfBits? (b : BitVec 3) : Option OpCode :=
  if b = 0b000#3 then some .zero
  else if b = 0b001#3 then some .set
  else if b = 0b010#3 then some .mov
  else if b = 0b011#3 then some .add
  else if b = 0b100#3 then some .scale
  else if b = 0b101#3 then some .reqmem
  else none

/-- The instruction of a 64-bit micro-instruction word. -/
def decodeUop (w : UopWord) : Except Reject Instr :=
  match opOfBits? (w.extractLsb' 61 3) with
  | some op => .ok (op.instr (uopFields w))
  | none => .error .reservedOp

/-- A field put at bit `lo` of an otherwise zero word of `n` bits. -/
def place {k : Nat} (n lo : Nat) (f : BitVec k) : BitVec n := f.setWidth n <<< lo

/-- The word of an operation and its fields: R59's formula, with RSV at its place (30_encoding.md
R57, R59). -/
def encodeUop (op : OpCode) (u : Uop) : UopWord :=
  place 64 61 op.bits ||| place 64 55 u.ra.bits ||| place 64 49 u.rb.bits |||
    place 64 47 u.sz ||| place 64 32 u.rsv ||| place 64 0 u.lit

/-! ## Descriptor words -/

/-- The fields of a descriptor word (30_encoding.md R61). -/
def descKind (e : DescWord) : BitVec 5 := e.extractLsb' 0 5
def descReg (e : DescWord) : RegNum := regOfBits (e.extractLsb' 5 3)
def descSz (e : DescWord) : BitVec 2 := e.extractLsb' 8 2
def descXA (e : DescWord) : BitVec 1 := e.extractLsb' 10 1
def descXN (e : DescWord) : RegNum := regOfBits (e.extractLsb' 11 3)
def descSc (e : DescWord) : BitVec 2 := e.extractLsb' 14 2
def descD1 (e : DescWord) : Word := e.extractLsb' 16 32
def descD2 (e : DescWord) : Word := e.extractLsb' 48 32

/-- The index operand of a descriptor: `D(XN)` when XA = 0, `A(XN)` when XA = 1 (30_encoding.md R61). -/
def descIndex (e : DescWord) : IndexReg :=
  if descXA e = 0b0#1 then .d (descXN e) else .a (descXN e)

/-- A kind that uses SZ: 11 is reserved (30_encoding.md R63). -/
def withSize (e : DescWord) (k : OperandSize → Instr) : Except Reject Instr :=
  match OperandSize.ofCode? (descSz e) with
  | some sz => .ok (k sz)
  | none => .error .reservedSize

/-- A kind that uses SC: 11 is reserved (30_encoding.md R63). -/
def withScale (e : DescWord) (k : OperandSize → Instr) : Except Reject Instr :=
  match OperandSize.ofCode? (descSc e) with
  | some sc => .ok (k sc)
  | none => .error .reservedScale

/-- The instruction of an 80-bit descriptor word. A field its kind does not use is never looked at
(30_encoding.md R62, R63). -/
def decodeDesc (e : DescWord) : Except Reject Instr :=
  let n := descReg e
  let d1 := descD1 e
  let x := descIndex e
  let d2 := descD2 e
  match (descKind e).toNat with
  | 0 => .ok (.dreg n)
  | 1 => .ok (.areg n)
  | 2 => .ok (.aind n)
  | 3 => withSize e (.apost n)
  | 4 => withSize e (.apre n)
  | 5 => .ok (.adisp n d1)
  | 6 => withScale e (.aidx n d1 x)
  | 7 => withScale e fun sc => .amipost n d1 x sc d2
  | 8 => withScale e fun sc => .amipre n d1 x sc d2
  | 9 => .ok (.pcdisp d1)
  | 10 => withScale e (.pcidx d1 x)
  | 11 => withScale e fun sc => .pcmipost d1 x sc d2
  | 12 => withScale e fun sc => .pcmipre d1 x sc d2
  | 13 => .ok (.absw d1)
  | 14 => .ok (.absl d1)
  | 15 => .ok (.imm d1)
  | _ => .error .reservedKind

/-- A descriptor word from its fields (30_encoding.md R61). -/
def packDesc (kind : BitVec 5) (reg : BitVec 3) (sz : BitVec 2) (xa : BitVec 1) (xn : BitVec 3)
    (sc : BitVec 2) (d1 d2 : Word) : DescWord :=
  place 80 0 kind ||| place 80 5 reg ||| place 80 8 sz ||| place 80 10 xa ||| place 80 11 xn |||
    place 80 14 sc ||| place 80 16 d1 ||| place 80 48 d2

def IndexReg.xa : IndexReg → BitVec 1
  | .d _ => 0b0#1
  | .a _ => 0b1#1

def IndexReg.xn : IndexReg → BitVec 3
  | .d n => regBits n
  | .a n => regBits n

/-- The word of a kind that uses REG and D1 alone, or one of them; unused fields are 0. -/
def packPlain (kind : BitVec 5) (reg : BitVec 3) (d1 : Word) : DescWord :=
  packDesc kind reg 0 0 0 0 d1 0

/-- The word of an indexed kind (30_encoding.md R61, R62). -/
def packIndexed (kind : BitVec 5) (reg : BitVec 3) (d1 : Word) (x : IndexReg) (sc : OperandSize)
    (d2 : Word) : DescWord :=
  packDesc kind reg 0 x.xa x.xn sc.code d1 d2

/-! ## All instructions -/

/-- An encoded instruction: the two formats are told apart by where the word is presented, not by a
bit of it (30_encoding.md R53, R57, R61). -/
inductive Code where
  | uop (w : UopWord)
  | desc (e : DescWord)
deriving DecidableEq, Repr

def decode : Code → Except Reject Instr
  | .uop w => decodeUop w
  | .desc e => decodeDesc e

/-- The word of an instruction; a field a descriptor kind does not use is 0. -/
def encode : Instr → Code
  | .zero u => .uop (encodeUop .zero u)
  | .set u => .uop (encodeUop .set u)
  | .mov u => .uop (encodeUop .mov u)
  | .add u => .uop (encodeUop .add u)
  | .scale u => .uop (encodeUop .scale u)
  | .reqmem u => .uop (encodeUop .reqmem u)
  | .dreg n => .desc (packPlain 0 (regBits n) 0)
  | .areg n => .desc (packPlain 1 (regBits n) 0)
  | .aind n => .desc (packPlain 2 (regBits n) 0)
  | .apost n sz => .desc (packDesc 3 (regBits n) sz.code 0 0 0 0 0)
  | .apre n sz => .desc (packDesc 4 (regBits n) sz.code 0 0 0 0 0)
  | .adisp n d1 => .desc (packPlain 5 (regBits n) d1)
  | .aidx n d1 x sc => .desc (packIndexed 6 (regBits n) d1 x sc 0)
  | .amipost n d1 x sc d2 => .desc (packIndexed 7 (regBits n) d1 x sc d2)
  | .amipre n d1 x sc d2 => .desc (packIndexed 8 (regBits n) d1 x sc d2)
  | .pcdisp d1 => .desc (packPlain 9 0 d1)
  | .pcidx d1 x sc => .desc (packIndexed 10 0 d1 x sc 0)
  | .pcmipost d1 x sc d2 => .desc (packIndexed 11 0 d1 x sc d2)
  | .pcmipre d1 x sc d2 => .desc (packIndexed 12 0 d1 x sc d2)
  | .absw d1 => .desc (packPlain 13 0 d1)
  | .absl d1 => .desc (packPlain 14 0 d1)
  | .imm d1 => .desc (packPlain 15 0 d1)

/-- A word of the opcode table as a code: 64 bits are a micro-instruction, every other length up to
80 a descriptor whose higher bits are 0 (log entry 11). -/
def tableCode? (nbits w : Nat) : Option Code :=
  if nbits = 64 then some (.uop (BitVec.ofNat 64 w))
  else if nbits ≤ 80 then some (.desc (BitVec.ofNat 80 (w % 2 ^ nbits)))
  else none

/-- The instruction the decoder reads from a word of the opcode table. -/
def decodeTableWord (nbits w : Nat) : Option Instr :=
  match tableCode? nbits w with
  | some c => (decode c).toOption
  | none => none

end Sys2Proof
end

