-- ==== Sys2Proof/Machine/Operands.lean ====
section
/-! DEFINITION. Operand references resolved against an instance (10_state.md R25, 30_encoding.md R55),
and what a size stands for (30_encoding.md R56). -/

namespace Sys2Proof.Machine

/-- A storage cell of 10_state.md R15. -/
inductive Cell where
  | d (n : RegNum)
  | a (n : RegNum)
  | pc
  | ccr
  | in0
  | in1
  | ioBuffer
  | tmp (k : Nat)
deriving DecidableEq, Repr

/-- An operand reference (`Reg`, 10_state.md R25): a cell, or a literal that can only be read. -/
inductive Operand where
  | cell (c : Cell)
  | imm (v : Word)
deriving DecidableEq, Repr

/-- `decodeRef` (30_encoding.md R55): `none` is BADREF. -/
def decodeRef (nTmp : Nat) (lit : Word) : RefCode → Option Operand
  | .d n => some (.cell (.d n))
  | .a n => some (.cell (.a n))
  | .pc => some (.cell .pc)
  | .ccr => some (.cell .ccr)
  | .in0 => some (.cell .in0)
  | .in1 => some (.cell .in1)
  | .ioBuffer => some (.cell .ioBuffer)
  | .tmp k => if k.val < nTmp then some (.cell (.tmp k.val)) else none
  | .imm => some (.imm lit)
  | .reserved _ => none

/-- The cell a storage code names; `none` for 0x30, a reserved code or an absent temporary
(40_register_file.md R76). -/
def storageCell? (nTmp : Nat) (c : RefCode) : Option Cell :=
  match decodeRef nTmp 0 c with
  | some (.cell x) => some x
  | _ => none

/-- `shift(size)` (30_encoding.md R56). -/
def shiftOf : OperandSize → Nat
  | .byte => 0
  | .word => 1
  | .long => 2

/-- `bytes(size)` (30_encoding.md R56). -/
def bytesOf : OperandSize → Word
  | .byte => 1
  | .word => 2
  | .long => 4

/-- Whether a cell exists on an instance with `nTmp` temporaries (10_state.md R15). -/
def Cell.present (nTmp : Nat) : Cell → Bool
  | .tmp k => k < nTmp
  | _ => true

end Sys2Proof.Machine
end

