-- ==== Sys2Proof/Machine/Ops.lean ====
section
/-! DEFINITION. The named operations over the register file, the queue and the control state. -/

namespace Sys2Proof.Machine

/-- `read` of a cell (40_register_file.md R69). A reference resolves to a temporary only where it
exists (30_encoding.md R55), so the value 0 of an absent one is never used. -/
def RegFile.read (rf : RegFile) : Cell → Word
  | .d n => rf.d[n.val]
  | .a n => rf.a[n.val]
  | .pc => rf.pc
  | .ccr => ccrRead rf.ccr
  | .in0 => rf.in0
  | .in1 => rf.in1
  | .ioBuffer => rf.ioBuffer
  | .tmp k => (rf.tmp[k]?).getD 0

/-- `write` of a cell (40_register_file.md R70). -/
def RegFile.write (rf : RegFile) (c : Cell) (v : Word) : RegFile :=
  match c with
  | .d n => { rf with d := rf.d.set n.val v }
  | .a n => { rf with a := rf.a.set n.val v }
  | .pc => { rf with pc := v }
  | .ccr => { rf with ccr := ccrWrite v }
  | .in0 => { rf with in0 := v }
  | .in1 => { rf with in1 := v }
  | .ioBuffer => { rf with ioBuffer := v }
  | .tmp k => { rf with tmp := rf.tmp.set k v }

/-- `read` of an operand reference (40_register_file.md R69). -/
def State.read (s : State) : Operand → Word
  | .cell c => s.rf.read c
  | .imm v => v

/-- `write` of a cell. -/
def State.write (s : State) (c : Cell) (v : Word) : State :=
  { s with rf := s.rf.write c v }

/-- Fault entry (60_exceptions.md R124): the shared taking of a fault. Nothing else changes. -/
def State.faultEntry (s : State) (code : FaultCode) (info : BitVec 64) : State :=
  { s with q := [], fcode := code, finfo := info, st := .faulted }

/-- Leaving Faulted (41_micro_instructions.md R96, 60_exceptions.md R128). -/
def State.leaveFault (s : State) : State :=
  { s with fcode := .none, finfo := 0, st := .idle }

/-- `Q = [] ? Idle : Running` (41_micro_instructions.md R87, R93). -/
def idleOrRunning : List UopWord → ExecState
  | [] => .idle
  | _ :: _ => .running

/-- The control state after a transition that leaves `Q` to be run. -/
def State.proceed (s : State) : State := { s with st := idleOrRunning s.q }

/-- Empty the queue; Running becomes Idle (41_micro_instructions.md R95). -/
def State.discard (s : State) : State :=
  { s with q := [], st := if s.st = .running then .idle else s.st }

/-- Enter Suspended with the request address latched (41_micro_instructions.md R86). -/
def State.suspend (s : State) (addr : Word) : State :=
  { s with pendAddr := addr, st := .suspended }

/-- Answer the host's command (60_exceptions.md R130). -/
def State.answer (s : State) (r : Response) (v : Option Word := none) : State :=
  { s with reply := some { response := r, value := v } }

/-- Append a sequence at the tail of `Q`; Idle becomes Running (42_addressing_modes.md R98). -/
def State.enqueue (s : State) (seq : List UopWord) : State :=
  { s with q := s.q ++ seq, st := if s.st = .idle then .running else s.st }

/-- Take a micro-instruction's word off the queue, leaving `rest` (41_micro_instructions.md R87). -/
def State.popped (s : State) (rest : List UopWord) : State := { s with q := rest }

/-- Take the first turn off the list, leaving `ts` (log entry 6). -/
def State.withTurns (s : State) (ts : List Turn) : State := { s with turns := ts }

/-- With no turn chosen, the next ones are drawn: a free burst of host commands, then the executor. So
between two executor's turns the host gives any finite number of commands, which is weak fairness
(41_micro_instructions.md R89; log entry 6). -/
def State.drawTurns (s : State) : State :=
  { s with
    turns := (Config.freeCommands s.draws).map Turn.host ++ [.executor]
    draws := s.draws + 1 }

/-- Take one free draw (log entry 5). -/
def State.drawOne (s : State) : State := { s with draws := s.draws + 1 }

/-- `lower`'s check and append, given the translated sequence (42_addressing_modes.md R98): refused
in Faulted, refused where it does not fit, else appended whole. -/
def State.append (s : State) (seq : List UopWord) : State :=
  if s.st = .faulted then s.answer .faulted
  else if s.qDepth < s.q.length + seq.length then s.answer .queueFull
  else (s.enqueue seq).answer .ok

/-- A register file of free draws, numbered from `k`, with as many temporaries as before
(10_state.md R32). -/
def RegFile.drawn (rf : RegFile) (k : Nat) : RegFile where
  d := Vector.ofFn fun i => Config.freeWord (k + i.val)
  a := Vector.ofFn fun i => Config.freeWord (k + 8 + i.val)
  pc := Config.freeWord (k + 16)
  ccr := Config.freeByte (k + 17)
  in0 := Config.freeWord (k + 18)
  in1 := Config.freeWord (k + 19)
  ioBuffer := Config.freeWord (k + 20)
  tmp := (List.range rf.tmp.length).map fun i => Config.freeWord (k + 22 + i)

/-- The reset transition (70_reset_and_hazards.md R139): the queue and the fault record cleared,
Idle, every cell and PEND_ADDR a free draw (log entry 4). -/
def State.resetBlock (s : State) : State :=
  { s with
    rf := s.rf.drawn s.draws
    q := []
    st := .idle
    pendAddr := Config.freeWord (s.draws + 21)
    fcode := .none
    finfo := 0
    draws := s.draws + 22 + s.nTmp }

end Sys2Proof.Machine
end

