-- ==== Sys2Proof/Machine/Translator.lean ====
section
/-! DEFINITION. The addressing-mode translator (42_addressing_modes.md R99 to R119): a pure function
from a descriptor to the words it appends to the queue. -/

namespace Sys2Proof.Machine

/-! ## Micro-instructions as the translator writes them: unused fields 0 (30_encoding.md R58) -/

/-- The reference code of an unused field: written 0, which is the code of D0. -/
def unusedRef : RefCode := .d 0

def uMov (dst src : RefCode) : UopWord := encodeUop .mov ⟨dst, src, 0, 0, 0⟩
def uAdd (r x : RefCode) : UopWord := encodeUop .add ⟨r, x, 0, 0, 0⟩
def uAddImm (r : RefCode) (v : Word) : UopWord := encodeUop .add ⟨r, .imm, 0, 0, v⟩
def uScale (r : RefCode) (sz : OperandSize) : UopWord :=
  encodeUop .scale ⟨r, unusedRef, sz.code, 0, 0⟩
def uReq (a : RefCode) : UopWord := encodeUop .reqmem ⟨a, unusedRef, 0, 0, 0⟩
def uReqImm (v : Word) : UopWord := encodeUop .reqmem ⟨.imm, unusedRef, 0, 0, v⟩

/-! ## The sub-sequences of R101 -/

/-- `FETCH(a)` with a register address. -/
def fetchRef (a : RefCode) : List UopWord := [uReq a, uMov .in0 .ioBuffer]

/-- `FETCH(Imm v)`. -/
def fetchImm (v : Word) : List UopWord := [uReqImm v, uMov .in0 .ioBuffer]

/-- `BASE(b, d)`: the displacement is always added, also when it is 0 (R100). -/
def base (b : RefCode) (d : Word) : List UopWord := [uMov .in0 b, uAddImm .in0 d]

/-- `INDEX(X, s)`. -/
def index (x : IndexReg) (sc : OperandSize) : List UopWord :=
  [uMov .in1 x.ref, uScale .in1 sc, uAdd .in0 .in1]

/-! ## One lowering per kind -/

/-- R103. -/
def seqDreg (n : RegNum) : List UopWord := [uMov .in0 (.d n)]

/-- R104. -/
def seqAreg (n : RegNum) : List UopWord := [uMov .in0 (.a n)]

/-- R105. -/
def seqAind (n : RegNum) : List UopWord := fetchRef (.a n)

/-- R106: fetch at the unmodified address, then add the byte count. -/
def seqApost (n : RegNum) (sz : OperandSize) : List UopWord :=
  fetchRef (.a n) ++ [uAddImm (.a n) (bytesOf sz)]

/-- R107: subtract the byte count, then fetch. -/
def seqApre (n : RegNum) (sz : OperandSize) : List UopWord :=
  [uAddImm (.a n) (-bytesOf sz)] ++ fetchRef (.a n)

/-- The shape of R108 and R113. -/
def seqDisp (b : RefCode) (d1 : Word) : List UopWord := base b d1 ++ fetchRef .in0

/-- The shape of R109 and R114. -/
def seqIndexed (b : RefCode) (d1 : Word) (x : IndexReg) (sc : OperandSize) : List UopWord :=
  base b d1 ++ index x sc ++ fetchRef .in0

/-- The shape of R110 and R115: the index is added after the first fetch. -/
def seqPostIndexed (b : RefCode) (d1 : Word) (x : IndexReg) (sc : OperandSize) (d2 : Word) :
    List UopWord :=
  base b d1 ++ fetchRef .in0 ++ index x sc ++ [uAddImm .in0 d2] ++ fetchRef .in0

/-- The shape of R111 and R116: the index is added before the first fetch. -/
def seqPreIndexed (b : RefCode) (d1 : Word) (x : IndexReg) (sc : OperandSize) (d2 : Word) :
    List UopWord :=
  base b d1 ++ index x sc ++ fetchRef .in0 ++ [uAddImm .in0 d2] ++ fetchRef .in0

/-- R108. -/
def seqAdisp (n : RegNum) (d1 : Word) : List UopWord := seqDisp (.a n) d1

/-- R109. -/
def seqAidx (n : RegNum) (d1 : Word) (x : IndexReg) (sc : OperandSize) : List UopWord :=
  seqIndexed (.a n) d1 x sc

/-- R110. -/
def seqAmipost (n : RegNum) (d1 : Word) (x : IndexReg) (sc : OperandSize) (d2 : Word) :
    List UopWord :=
  seqPostIndexed (.a n) d1 x sc d2

/-- R111. -/
def seqAmipre (n : RegNum) (d1 : Word) (x : IndexReg) (sc : OperandSize) (d2 : Word) :
    List UopWord :=
  seqPreIndexed (.a n) d1 x sc d2

/-- R112, R113. -/
def seqPcdisp (d1 : Word) : List UopWord := seqDisp .pc d1

/-- R112, R114. -/
def seqPcidx (d1 : Word) (x : IndexReg) (sc : OperandSize) : List UopWord := seqIndexed .pc d1 x sc

/-- R112, R115. -/
def seqPcmipost (d1 : Word) (x : IndexReg) (sc : OperandSize) (d2 : Word) : List UopWord :=
  seqPostIndexed .pc d1 x sc d2

/-- R112, R116. -/
def seqPcmipre (d1 : Word) (x : IndexReg) (sc : OperandSize) (d2 : Word) : List UopWord :=
  seqPreIndexed .pc d1 x sc d2

/-- R117: the address is used as given. -/
def seqAbsw (d1 : Word) : List UopWord := fetchImm d1

/-- R118. -/
def seqAbsl (d1 : Word) : List UopWord := fetchImm d1

/-- R119: a request at the immediate value itself. -/
def seqImm (d1 : Word) : List UopWord := fetchImm d1

/-- The words a descriptor is lowered to; a micro-operation is not a descriptor and has none. -/
def loweringOf : Instr → List UopWord
  | .zero _ | .set _ | .mov _ | .add _ | .scale _ | .reqmem _ => []
  | .dreg n => seqDreg n
  | .areg n => seqAreg n
  | .aind n => seqAind n
  | .apost n sz => seqApost n sz
  | .apre n sz => seqApre n sz
  | .adisp n d1 => seqAdisp n d1
  | .aidx n d1 x sc => seqAidx n d1 x sc
  | .amipost n d1 x sc d2 => seqAmipost n d1 x sc d2
  | .amipre n d1 x sc d2 => seqAmipre n d1 x sc d2
  | .pcdisp d1 => seqPcdisp d1
  | .pcidx d1 x sc => seqPcidx d1 x sc
  | .pcmipost d1 x sc d2 => seqPcmipost d1 x sc d2
  | .pcmipre d1 x sc d2 => seqPcmipre d1 x sc d2
  | .absw d1 => seqAbsw d1
  | .absl d1 => seqAbsl d1
  | .imm d1 => seqImm d1

/-- `translate(e)` (R99): reserved descriptors have no translation. -/
def translateDesc (e : DescWord) : Except Reject (List UopWord) :=
  (decodeDesc e).map loweringOf

end Sys2Proof.Machine
end

