-- ==== Sys2Proof/Machine/Descriptors.lean ====
section
/-! DEFINITION. The sixteen descriptor kinds: executing one is the `lower` command on it
(42_addressing_modes.md R98), which appends its lowering to `Q` or answers why not. -/

namespace Sys2Proof.Machine

/-- `lower` of DREG (R103). -/
def execDreg (n : RegNum) (s : State) :
    Host.Outcome State Fault Refusal :=
  .next (s.append (seqDreg n))

/-- `lower` of AREG (R104). -/
def execAreg (n : RegNum) (s : State) :
    Host.Outcome State Fault Refusal :=
  .next (s.append (seqAreg n))

/-- `lower` of AIND (R105). -/
def execAind (n : RegNum) (s : State) :
    Host.Outcome State Fault Refusal :=
  .next (s.append (seqAind n))

/-- `lower` of APOST (R106). -/
def execApost (n : RegNum) (sz : OperandSize) (s : State) :
    Host.Outcome State Fault Refusal :=
  .next (s.append (seqApost n sz))

/-- `lower` of APRE (R107). -/
def execApre (n : RegNum) (sz : OperandSize) (s : State) :
    Host.Outcome State Fault Refusal :=
  .next (s.append (seqApre n sz))

/-- `lower` of ADISP (R108). -/
def execAdisp (n : RegNum) (d1 : Word) (s : State) :
    Host.Outcome State Fault Refusal :=
  .next (s.append (seqAdisp n d1))

/-- `lower` of AIDX (R109). -/
def execAidx (n : RegNum) (d1 : Word) (x : IndexReg) (sc : OperandSize) (s : State) :
    Host.Outcome State Fault Refusal :=
  .next (s.append (seqAidx n d1 x sc))

/-- `lower` of AMIPOST (R110). -/
def execAmipost (n : RegNum) (d1 : Word) (x : IndexReg) (sc : OperandSize) (d2 : Word) (s : State) :
    Host.Outcome State Fault Refusal :=
  .next (s.append (seqAmipost n d1 x sc d2))

/-- `lower` of AMIPRE (R111). -/
def execAmipre (n : RegNum) (d1 : Word) (x : IndexReg) (sc : OperandSize) (d2 : Word) (s : State) :
    Host.Outcome State Fault Refusal :=
  .next (s.append (seqAmipre n d1 x sc d2))

/-- `lower` of PCDISP (R113). -/
def execPcdisp (d1 : Word) (s : State) :
    Host.Outcome State Fault Refusal :=
  .next (s.append (seqPcdisp d1))

/-- `lower` of PCIDX (R114). -/
def execPcidx (d1 : Word) (x : IndexReg) (sc : OperandSize) (s : State) :
    Host.Outcome State Fault Refusal :=
  .next (s.append (seqPcidx d1 x sc))

/-- `lower` of PCMIPOST (R115). -/
def execPcmipost (d1 : Word) (x : IndexReg) (sc : OperandSize) (d2 : Word) (s : State) :
    Host.Outcome State Fault Refusal :=
  .next (s.append (seqPcmipost d1 x sc d2))

/-- `lower` of PCMIPRE (R116). -/
def execPcmipre (d1 : Word) (x : IndexReg) (sc : OperandSize) (d2 : Word) (s : State) :
    Host.Outcome State Fault Refusal :=
  .next (s.append (seqPcmipre d1 x sc d2))

/-- `lower` of ABSW (R117). -/
def execAbsw (d1 : Word) (s : State) :
    Host.Outcome State Fault Refusal :=
  .next (s.append (seqAbsw d1))

/-- `lower` of ABSL (R118). -/
def execAbsl (d1 : Word) (s : State) :
    Host.Outcome State Fault Refusal :=
  .next (s.append (seqAbsl d1))

/-- `lower` of IMM (R119). -/
def execImm (d1 : Word) (s : State) :
    Host.Outcome State Fault Refusal :=
  .next (s.append (seqImm d1))

end Sys2Proof.Machine
end

