-- ==== Sys2Proof/Machine/MicroOps.lean ====
section
/-! DEFINITION. The six micro-operations (41_micro_instructions.md R78 to R86). Each meaning is applied
to the state in which the word has been popped from `Q` (R87). -/

namespace Sys2Proof.Machine

/-- A used reference field, resolved, or BAD_REF (41_micro_instructions.md R78). -/
def State.operand (s : State) (u : Uop) (c : RefCode) : Except FaultCode Operand :=
  match decodeRef s.nTmp u.lit c with
  | some o => .ok o
  | none => .error .badRef

/-- A written operand is a cell, or IMM_WRITE (40_register_file.md R71). -/
def Operand.writable : Operand → Except FaultCode Cell
  | .cell c => .ok c
  | .imm _ => .error .immWrite

/-- The size of SCALE, or BAD_UOP (41_micro_instructions.md R85). -/
def scaleSize (u : Uop) : Except FaultCode OperandSize :=
  match OperandSize.ofCode? u.sz with
  | some sz => .ok sz
  | none => .error .badUop

/-- End a micro-operation: its next state, or fault entry with the whole word in FINFO
(41_micro_instructions.md R87, 60_exceptions.md R123). -/
def complete (op : OpCode) (u : Uop) (s : State) (r : Except FaultCode State) :
    Host.Outcome State Fault Refusal :=
  match r with
  | .ok t => .next t
  | .error f => .next (s.faultEntry f (encodeUop op u))

/-- `Zero(r)`: `write(ra, 0)` (R81). -/
def execZero (u : Uop) (s : State) : Host.Outcome State Fault Refusal :=
  complete .zero u s do
    let r ← s.operand u u.ra
    let dst ← r.writable
    return (s.write dst 0).proceed

/-- `Set(r, x)`: `write(ra, LIT)` (R82). -/
def execSet (u : Uop) (s : State) : Host.Outcome State Fault Refusal :=
  complete .set u s do
    let r ← s.operand u u.ra
    let dst ← r.writable
    return (s.write dst u.lit).proceed

/-- `Mov(dst, src)`: `write(ra, read(rb))` (R83). -/
def execMov (u : Uop) (s : State) : Host.Outcome State Fault Refusal :=
  complete .mov u s do
    let r ← s.operand u u.ra
    let src ← s.operand u u.rb
    let dst ← r.writable
    return (s.write dst (s.read src)).proceed

/-- `Add(r, x)`: `write(ra, read(ra) +32 read(rb))` (R84). -/
def execAdd (u : Uop) (s : State) : Host.Outcome State Fault Refusal :=
  complete .add u s do
    let r ← s.operand u u.ra
    let x ← s.operand u u.rb
    let dst ← r.writable
    return (s.write dst (s.read r + s.read x)).proceed

/-- `Scale(r, size)`: `write(ra, read(ra) << shift(size))` (R85). -/
def execScale (u : Uop) (s : State) : Host.Outcome State Fault Refusal :=
  complete .scale u s do
    let sz ← scaleSize u
    let r ← s.operand u u.ra
    let dst ← r.writable
    return (s.write dst (s.read r <<< shiftOf sz)).proceed

/-- `RequestMem(a)`: latch `read(ra)` in PEND_ADDR and suspend (R86). -/
def execReqmem (u : Uop) (s : State) : Host.Outcome State Fault Refusal :=
  complete .reqmem u s do
    let a ← s.operand u u.ra
    return s.suspend (s.read a)

end Sys2Proof.Machine
end

