-- ==== Sys2Proof/Machine/Dispatch.lean ====
section
/-! DEFINITION. One arm per instruction. -/

namespace Sys2Proof.Machine

def exec (i : Instr) (s : State) : Host.Outcome State Fault Refusal :=
  match i with
  | .zero u => Sys2Proof.Machine.execZero u s
  | .set u => Sys2Proof.Machine.execSet u s
  | .mov u => Sys2Proof.Machine.execMov u s
  | .add u => Sys2Proof.Machine.execAdd u s
  | .scale u => Sys2Proof.Machine.execScale u s
  | .reqmem u => Sys2Proof.Machine.execReqmem u s
  | .dreg n => Sys2Proof.Machine.execDreg n s
  | .areg n => Sys2Proof.Machine.execAreg n s
  | .aind n => Sys2Proof.Machine.execAind n s
  | .apost n sz => Sys2Proof.Machine.execApost n sz s
  | .apre n sz => Sys2Proof.Machine.execApre n sz s
  | .adisp n d1 => Sys2Proof.Machine.execAdisp n d1 s
  | .aidx n d1 x sc => Sys2Proof.Machine.execAidx n d1 x sc s
  | .amipost n d1 x sc d2 => Sys2Proof.Machine.execAmipost n d1 x sc d2 s
  | .amipre n d1 x sc d2 => Sys2Proof.Machine.execAmipre n d1 x sc d2 s
  | .pcdisp d1 => Sys2Proof.Machine.execPcdisp d1 s
  | .pcidx d1 x sc => Sys2Proof.Machine.execPcidx d1 x sc s
  | .pcmipost d1 x sc d2 => Sys2Proof.Machine.execPcmipost d1 x sc d2 s
  | .pcmipre d1 x sc d2 => Sys2Proof.Machine.execPcmipre d1 x sc d2 s
  | .absw d1 => Sys2Proof.Machine.execAbsw d1 s
  | .absl d1 => Sys2Proof.Machine.execAbsl d1 s
  | .imm d1 => Sys2Proof.Machine.execImm d1 s

end Sys2Proof.Machine
end

