-- ==== Sys2Proof/Machine/HostCommands.lean ====
section
/-! DEFINITION. The host commands that are not instructions (41_micro_instructions.md R93 to R97,
40_register_file.md R76, 10_state.md R30, 70_reset_and_hazards.md R139). A refused command changes
nothing but the reply (R97). `lower` is in Machine/Descriptors.lean and Machine/Fetch.lean. -/

namespace Sys2Proof.Machine

/-- `resume(v)` (R93): the fetch's answer into IOBuffer, and on with the queue, in one transition. -/
def State.resume (s : State) (v : Word) : State :=
  if s.st = .suspended then ((s.write .ioBuffer v).proceed).answer .ok
  else s.answer .notSuspended

/-- `fail()` (R94): the pending fetch failed. -/
def State.failFetch (s : State) : State :=
  if s.st = .suspended then (s.faultEntry .fetchFail (s.pendAddr.setWidth 64)).answer .ok
  else s.answer .notSuspended

/-- `flush()` (R95). -/
def State.flush (s : State) : State :=
  if s.st = .suspended then s.answer .busy
  else s.discard.answer .ok

/-- `ack_fault()` (R96). -/
def State.ackFault (s : State) : State :=
  if s.st = .faulted then s.leaveFault.answer .ok
  else s.answer .notFaulted

/-- `host_read(c)` (R76): accepted in every state. -/
def State.hostRead (s : State) (c : BitVec 6) : State :=
  match storageCell? s.nTmp (RefCode.ofBits c) with
  | some x => s.answer .ok (some (s.rf.read x))
  | none => s.answer .badRef

/-- `host_write(c, v)` (R76): the code is checked before the state. -/
def State.hostWrite (s : State) (c : BitVec 6) (v : Word) : State :=
  match storageCell? s.nTmp (RefCode.ofBits c) with
  | some x => if s.st = .running then s.answer .busy else (s.write x v).answer .ok
  | none => s.answer .badRef

/-- `status_read(SEL)` (R30). Outside Suspended the PEND_ADDR word is a free draw (R28; log entry 5). -/
def State.statusRead (s : State) (sel : BitVec 2) : State :=
  if sel = 0#2 then s.answer .ok (some (statusWord s))
  else if sel = 1#2 then
    if s.st = .suspended then s.answer .ok (some s.pendAddr)
    else s.drawOne.answer .ok (some (Config.freeWord s.draws))
  else if sel = 2#2 then s.answer .ok (some (finfoLo s))
  else s.answer .ok (some (finfoHi s))

/-- `reset()` (R139). It answers OK (60_exceptions.md R130; log entry 8). -/
def State.resetCommand (s : State) : State := s.resetBlock.answer .ok

end Sys2Proof.Machine
end

