-- ==== Sys2Proof/Machine/Fetch.lean ====
section
/-! DEFINITION. Which transition comes next (41_micro_instructions.md R87 to R89): the instruction to
run, if one is, and the state to run it in. -/

namespace Sys2Proof.Machine

/-- What a turn amounts to. -/
inductive Fetched where
  /-- Run instruction `i` in state `s`. -/
  | run (i : Instr) (s : State)
  /-- The transition runs no instruction. -/
  | done (o : Host.Outcome State Fault Refusal)
deriving Repr

/-- The executor's turn (R87): enabled exactly in Running, where it pops the head of `Q`. A word with
a reserved OP faults BAD_UOP (R78). Where it is not enabled the turn passes and nothing changes
(log entries 6 and 7). -/
def executorTurn (s : State) : Fetched :=
  match s.st with
  | .running =>
    match s.q with
    | w :: rest =>
      match decodeUop w with
      | .ok i => .run i (s.popped rest)
      | .error _ => .done (.next ((s.popped rest).faultEntry .badUop w))
    | [] => .done (.fault .runningWithEmptyQueue)
  | .idle => .done (.next s)
  | .suspended => .done (.next s)
  | .faulted => .done (.next s)

/-- The host's turn. A reserved descriptor is refused, after the check for Faulted
(42_addressing_modes.md R98). -/
def hostTurn (c : Command) (s : State) : Fetched :=
  match c with
  | .lower e =>
    match decodeDesc e with
    | .ok i => .run i s
    | .error _ =>
      .done (.next (s.answer (if s.st = .faulted then .faulted else .descReserved)))
  | .resume v => .done (.next (s.resume v))
  | .fail => .done (.next s.failFetch)
  | .flush => .done (.next s.flush)
  | .ackFault => .done (.next s.ackFault)
  | .hostRead c => .done (.next (s.hostRead c))
  | .hostWrite c v => .done (.next (s.hostWrite c v))
  | .statusRead sel => .done (.next (s.statusRead sel))
  | .reset => .done (.next s.resetCommand)

/-- The next transition: the first turn chosen. Where none is, the step only draws the next turns, and
the block does nothing (R89; log entry 6). -/
def fetch (s : State) : Fetched :=
  match s.turns with
  | [] => .done (.next s.drawTurns)
  | .executor :: ts => executorTurn (s.withTurns ts)
  | .host c :: ts => hostTurn c (s.withTurns ts)

/-- A state whose next transition runs the word of `c`: a micro-instruction at the head of `Q` with
the executor about to run, a descriptor in a `lower` about to be given (log entry 12). -/
def State.presenting (s : State) (c : Code) : State :=
  match c with
  | .uop w => { s with q := w :: s.q, st := .running, turns := .executor :: s.turns }
  | .desc e => { s with turns := .host (.lower e) :: s.turns }

end Sys2Proof.Machine
end

