-- ==== Sys2Proof/Machine/Step.lean ====
section
/-! DEFINITION. One transition of the block (41_micro_instructions.md R89). -/

namespace Sys2Proof.Machine

/-- Run the instruction a turn fetched, if it fetched one. -/
def perform : Fetched → Host.Outcome State Fault Refusal
  | .run i t => exec i t
  | .done o => o

/-- One transition: the next turn, running the instruction it fetches. With no turn chosen, the step
only draws the next ones (log entry 6). -/
def step (s : State) : Host.Outcome State Fault Refusal := perform (fetch s)

/-- `s` with a word of the opcode table where the next step fetches it (log entries 11 and 12). -/
def State.withFetchWord (s : State) (nbits w : Nat) : State :=
  match tableCode? nbits w with
  | some c => s.presenting c
  | none => s

end Sys2Proof.Machine
end

