-- ==== Sys2Proof/Safety.lean ====
section
/-! DEFINITION. What the claims are stated in: the invariants of the block, the check of a
micro-instruction word as the spec writes it, and what a transition leaves alone. -/

namespace Sys2Proof.Machine

/-- Within the parameters of 00_scope.md R8. -/
structure ParamsInRange (s : State) : Prop where
  nTmpLow   : Config.nTmpMin ≤ s.nTmp
  nTmpHigh  : s.nTmp ≤ Config.nTmpMax
  depthLow  : Config.qDepthMin ≤ s.qDepth
  depthHigh : s.qDepth ≤ Config.qDepthMax

/-- The invariants of 10_state.md R27 and the capacity of R26; FINFO is 0 while no fault is recorded (R29). -/
structure ControlInv (s : State) : Prop where
  idleEmpty    : s.st = .idle → s.q = []
  runNonempty  : s.st = .running → s.q ≠ []
  faultedEmpty : s.st = .faulted → s.q = []
  faultedCode  : s.st = .faulted ↔ s.fcode ≠ .none
  noFaultInfo  : s.fcode = .none → s.finfo = 0
  fits         : s.q.length ≤ s.qDepth

/-- A word the translator emits for some descriptor (42_addressing_modes.md R99). -/
def Emitted (w : UopWord) : Prop := ∃ i : Instr, w ∈ loweringOf i

/-- The queue holds the translator's words alone (10_state.md R26). -/
def QueueEmitted (s : State) : Prop := ∀ w ∈ s.q, Emitted w

/-- The block's invariant. -/
structure Inv (s : State) : Prop where
  params  : ParamsInRange s
  control : ControlInv s
  queue   : QueueEmitted s

/-- No fault but FETCH_FAIL is recorded (60_exceptions.md R123, last column). -/
def NoExecutorFault (s : State) : Prop := s.fcode = .none ∨ s.fcode = .fetchFail

/-! ## Turns and runs -/

/-- The state a turn is taken in: the first turn is off the list (log entry 6). -/
def State.taken (s : State) : State := s.withTurns s.turns.tail

/-- The executor is next: it is named first (log entry 6). -/
def State.executorNext (s : State) : Prop := ∃ ts, s.turns = .executor :: ts

/-- `k` transitions one after another, stopping where one stops. -/
def runSteps : Nat → State → Host.Outcome State Fault Refusal
  | 0, s => .next s
  | k + 1, s =>
    match step s with
    | .next t => runSteps k t
    | .fault f => .fault f
    | .refused r => .refused r

/-- The host gives `lower(e)`, then the executor makes `k` steps. -/
def lowerThen (k : Nat) (e : DescWord) (s : State) : Host.Outcome State Fault Refusal :=
  runSteps (k + 1) { s with turns := .host (.lower e) :: List.replicate k .executor }

/-- The host gives `resume(v)`, then the executor makes `k` steps. -/
def resumeThen (k : Nat) (v : Word) (s : State) : Host.Outcome State Fault Refusal :=
  runSteps (k + 1) { s with turns := .host (.resume v) :: List.replicate k .executor }

/-- The reply OK without a value. -/
def okReply : Option Reply := some { response := .ok, value := none }

/-- A refusal. -/
def refusal (r : Response) : Option Reply := some { response := r, value := none }

/-- Idle with room for any one descriptor (00_scope.md R8, 10_state.md R27). -/
structure Ready (s : State) : Prop where
  idle  : s.st = .idle
  empty : s.q = []
  room  : Config.qDepthMin ≤ s.qDepth

/-! ## Encodings as the spec writes them, on bits -/

/-- `decodeRef(c, w)` with `w[31:0] = lit`, by the codes of 30_encoding.md R54 and R55. -/
def refOfCode (nTmp : Nat) (lit : Word) (c : BitVec 6) : Option Operand :=
  let k := c.toNat
  if k ≤ 0x07 then some (.cell (.d (Fin.ofNat 8 k)))
  else if k ≤ 0x0F then some (.cell (.a (Fin.ofNat 8 (k - 0x08))))
  else if k = 0x10 then some (.cell .pc)
  else if k = 0x11 then some (.cell .ccr)
  else if k = 0x12 then some (.cell .in0)
  else if k = 0x13 then some (.cell .in1)
  else if k = 0x14 then some (.cell .ioBuffer)
  else if 0x20 ≤ k ∧ k ≤ 0x2F ∧ k - 0x20 < nTmp then some (.cell (.tmp (k - 0x20)))
  else if k = 0x30 then some (.imm lit)
  else none

/-- `checkUop(w)` (41_micro_instructions.md R78), in its order: the first fault, or none. -/
def checkUop (nTmp : Nat) (w : UopWord) : Option FaultCode :=
  let op := (w.extractLsb' 61 3).toNat
  let lit := w.extractLsb' 0 32
  if op = 6 ∨ op = 7 then some .badUop
  else if op = 4 ∧ w.extractLsb' 47 2 = 0b11#2 then some .badUop
  else if refOfCode nTmp lit (w.extractLsb' 55 6) = none then some .badRef
  else if (op = 2 ∨ op = 3) ∧ refOfCode nTmp lit (w.extractLsb' 49 6) = none then some .badRef
  else if op ≠ 5 ∧ w.extractLsb' 55 6 = 0x30#6 then some .immWrite
  else none

/-- `reservedDesc(e)` (30_encoding.md R63). -/
def reservedDesc (e : DescWord) : Prop :=
  let kind := (e.extractLsb' 0 5).toNat
  16 ≤ kind ∨ (kind ∈ [3, 4] ∧ e.extractLsb' 8 2 = 0b11#2) ∨
    (kind ∈ [6, 7, 8, 10, 11, 12] ∧ e.extractLsb' 14 2 = 0b11#2)

/-- The bits a kind uses, KIND included (30_encoding.md R61, R62): KIND [4:0], REG [7:5], SZ [9:8],
XA, XN, SC [15:10], D1 [47:16], D2 [79:48]. -/
def usedMask (kind : Nat) : DescWord :=
  if kind ≤ 2 then 0x000000000000000000FF#80
  else if kind ≤ 4 then 0x000000000000000003FF#80
  else if kind = 5 then 0x00000000FFFFFFFF00FF#80
  else if kind = 6 then 0x00000000FFFFFFFFFCFF#80
  else if kind ≤ 8 then 0xFFFFFFFFFFFFFFFFFCFF#80
  else if kind = 9 then 0x00000000FFFFFFFF001F#80
  else if kind = 10 then 0x00000000FFFFFFFFFC1F#80
  else if kind ≤ 12 then 0xFFFFFFFFFFFFFFFFFC1F#80
  else 0x00000000FFFFFFFF001F#80

/-- Fields of a descriptor, by their bits (30_encoding.md R61). -/
def kindOf (e : DescWord) : Nat := (e.extractLsb' 0 5).toNat
def regOf (e : DescWord) : RegNum := (e.extractLsb' 5 3).toFin
def sizeField (e : DescWord) : Nat := (e.extractLsb' 8 2).toNat
def scaleField (e : DescWord) : Nat := (e.extractLsb' 14 2).toNat
def d1Of (e : DescWord) : Word := e.extractLsb' 16 32
def d2Of (e : DescWord) : Word := e.extractLsb' 48 32

/-- The 6-bit code of the index operand, `{0b00, XA, XN}`, as a number (30_encoding.md R61). -/
def indexCode (e : DescWord) : Nat :=
  8 * (e.extractLsb' 10 1).toNat + (e.extractLsb' 11 3).toNat

/-- The value of the index operand X (42_addressing_modes.md R101). -/
def indexValue (rf : RegFile) (e : DescWord) : Word :=
  if e.extractLsb' 10 1 = 0b0#1 then rf.d.get (e.extractLsb' 11 3).toFin
  else rf.a.get (e.extractLsb' 11 3).toFin

/-- The index scaled: `read(X) << shift(sc)`; a size code is its own shift (30_encoding.md R56). -/
def scaledIndex (rf : RegFile) (e : DescWord) : Word := indexValue rf e <<< scaleField e

/-- `bytes(sz)` = 2 to the size code (30_encoding.md R56). -/
def stepBytes (e : DescWord) : Word := 1#32 <<< sizeField e

/-- The base of an address-register kind, or PC of a PC-relative kind (42_addressing_modes.md R112). -/
def baseValue (rf : RegFile) (e : DescWord) : Word :=
  if kindOf e ≤ 8 then rf.a.get (regOf e) else rf.pc

/-! ### The words of 42_addressing_modes.md R101's table -/

def wMovIn0IoBuffer : UopWord := 0x4928000000000000#64
def wReqIn0 : UopWord := 0xA900000000000000#64
def wReqA (n : Nat) : UopWord := 0xA400000000000000#64 + BitVec.ofNat 64 n * 0x0080000000000000#64
def wReqImm (a : Word) : UopWord := 0xB800000000000000#64 + a.setWidth 64
def wMovIn0D (n : Nat) : UopWord := 0x4900000000000000#64 + BitVec.ofNat 64 n * 0x0002000000000000#64
def wMovIn0A (n : Nat) : UopWord := 0x4910000000000000#64 + BitVec.ofNat 64 n * 0x0002000000000000#64
def wMovIn0Pc : UopWord := 0x4920000000000000#64
def wAddIn0Imm (d : Word) : UopWord := 0x6960000000000000#64 + d.setWidth 64
def wAddAImm (n : Nat) (k : Word) : UopWord :=
  0x6460000000000000#64 + BitVec.ofNat 64 n * 0x0080000000000000#64 + k.setWidth 64
def wMovIn1X (code : Nat) : UopWord :=
  0x4980000000000000#64 + BitVec.ofNat 64 code * 0x0002000000000000#64
def wScaleIn1 (s : Nat) : UopWord := 0x8980000000000000#64 + BitVec.ofNat 64 s * 0x0000800000000000#64
def wAddIn0In1 : UopWord := 0x6926000000000000#64

/-- The code of an index register: D0 to D7 are 0 to 7, A0 to A7 are 8 to 15. -/
def indexRegCode : IndexReg → Nat
  | .d n => n.val
  | .a n => 8 + n.val

/-- The code of a size (30_encoding.md R56). -/
def sizeCode : OperandSize → Nat
  | .byte => 0
  | .word => 1
  | .long => 2

/-! ## What a descriptor does -/

/-- Executing `i` appends `ws` to the queue, whole or not at all (42_addressing_modes.md R98). -/
def LowersTo (i : Instr) (ws : List UopWord) : Prop :=
  ∀ s : State,
    (s.st ≠ .faulted → s.q.length + ws.length ≤ s.qDepth →
      exec i s = .next { s with
        q := s.q ++ ws
        st := if s.st = .idle then .running else s.st
        reply := okReply }) ∧
    (s.st ≠ .faulted → s.qDepth < s.q.length + ws.length →
      exec i s = .next { s with reply := refusal .queueFull }) ∧
    (s.st = .faulted → exec i s = .next { s with reply := refusal .faulted })

/-- The memory answers `fail()` at `u`: Faulted, FETCH_FAIL, the queue empty, the registers as they
were at `u` (41_micro_instructions.md R94, 60_exceptions.md R124). -/
def FailsFrom (s u : State) (addr : Word) : Prop :=
  step { u with turns := [.host .fail] } = .next { s with
    rf := u.rf
    q := []
    st := .faulted
    pendAddr := addr
    fcode := .fetchFail
    finfo := addr.setWidth 64
    turns := []
    reply := okReply }

/-- `lower(e)` from `s` and `k` executor steps reach a request at `addr` with the registers `rfAt`;
there a failure aborts, and an answer `v` and `m` more steps end Idle with the registers `rfEnd v`. -/
def FetchesOnce (s : State) (e : DescWord) (k m : Nat) (addr : Word) (rfAt : RegFile)
    (rfEnd : Word → RegFile) : Prop :=
  ∃ u, lowerThen k e s = .next u ∧ u.st = .suspended ∧ u.pendAddr = addr ∧ u.rf = rfAt ∧
    FailsFrom s u addr ∧
    ∀ v, resumeThen m v u = .next { s with
      rf := rfEnd v
      pendAddr := addr
      turns := []
      reply := okReply }

/-- As `FetchesOnce`, with two requests: at `a1`, then, the first answer being `p`, at `a2 p`. -/
def FetchesTwice (s : State) (e : DescWord) (k l m : Nat) (a1 : Word) (a2 : Word → Word)
    (rfEnd : Word → RegFile) : Prop :=
  ∃ u, lowerThen k e s = .next u ∧ u.st = .suspended ∧ u.pendAddr = a1 ∧ FailsFrom s u a1 ∧
    ∀ p, ∃ x, resumeThen l p u = .next x ∧ x.st = .suspended ∧ x.pendAddr = a2 p ∧
      FailsFrom s x (a2 p) ∧
      ∀ v, resumeThen m v x = .next { s with
        rf := rfEnd v
        pendAddr := a2 p
        turns := []
        reply := okReply }

/-! ## Frames -/

/-- What a cell reads after `v` is written to it: CCR keeps bits [7:0] (40_register_file.md R72). -/
def storedAs (c : Cell) (v : Word) : Word :=
  if c = .ccr then v &&& 0xFF#32 else v

/-- Every cell but `c` reads as before, and there are as many temporaries as before. -/
def CellsButUnchanged (c : Cell) (s t : State) : Prop :=
  (∀ x : Cell, x ≠ c → t.rf.read x = s.rf.read x) ∧ t.nTmp = s.nTmp

/-- A micro-operation that writes `v` to `c` and ends: the cell reads `v` (CCR its low byte), every
other cell, the queue, the pending address, the fault record, the parameters and the model's own
fields are as before, and the executor goes on or, with nothing left, to Idle. -/
def WritesAndGoesOn (c : Cell) (v : Word) (s t : State) : Prop :=
  t.rf.read c = storedAs c v ∧ CellsButUnchanged c s t ∧
    t.st = (if s.q = [] then .idle else .running) ∧ t.q = s.q ∧ t.pendAddr = s.pendAddr ∧
    t.fcode = s.fcode ∧ t.finfo = s.finfo ∧ t.qDepth = s.qDepth ∧ t.turns = s.turns ∧
    t.reply = s.reply ∧ t.draws = s.draws

/-- `s` after fault entry (60_exceptions.md R124): only the queue, the fault record and ST differ. -/
def enterFault (s : State) (code : FaultCode) (info : BitVec 64) : State :=
  { s with q := [], fcode := code, finfo := info, st := .faulted }

end Sys2Proof.Machine
end

