-- ==== Sys2Proof/Certificates/Slice0/Obligations.lean ====
section
/-! DEFINITION. The statements for the provers. -/

open Sys2Proof Sys2Proof.Machine

/-! ## Encodings -/

/-- A few words of 95_test_vectors.md decode to the instructions the vectors name. -/
def Obligations.SpecWordsDecodeAsListed : Prop :=
  decodeUop 0x0980000000000000 = .ok (.zero ⟨.in1, .d 0, 0, 0, 0⟩) ∧
  decodeUop 0x30000000DEADBEEF = .ok (.set ⟨.tmp 0, .d 0, 0, 0, 0xDEADBEEF⟩) ∧
  decodeUop 0x4906000000000000 = .ok (.mov ⟨.in0, .d 3, 0, 0, 0⟩) ∧
  decodeUop 0x66E00000FFFFFFFC = .ok (.add ⟨.a 5, .imm, 0, 0, 0xFFFFFFFC⟩) ∧
  decodeUop 0x8980800000000000 = .ok (.scale ⟨.in1, .d 0, 1, 0, 0⟩) ∧
  decodeUop 0xA500000000000000 = .ok (.reqmem ⟨.a 2, .d 0, 0, 0, 0⟩) ∧
  decodeDesc 0x00000000000000000143 = .ok (.apost 2 .word) ∧
  decodeDesc 0x00000004000000108807 = .ok (.amipost 0 0x10 (.d 1) .long 4) ∧
  decodeDesc 0x00000000FFFF80005C0A = .ok (.pcidx 0xFFFF8000 (.a 3) .word)

/-- Decoding the word of a well-formed instruction, micro-operation or descriptor, gives it back,
with every operand at every value its encoding admits. -/
def Obligations.WellFormedInstructionsRoundTrip : Prop :=
  ∀ i : Instr, i.WellFormed → decode (encode i) = .ok i

/-- R57, R58: every 64-bit word whose OP is 000 to 101 decodes to that operation with the fields at
their bits, and encodes back to itself, bit for bit; OP 110 and 111 are rejected. -/
def Obligations.UopWordsDecodeByTheirFields : Prop :=
  ∀ w : UopWord,
    (∀ op : OpCode,
      (w.extractLsb' 61 3).toNat = (match op with
        | .zero => 0 | .set => 1 | .mov => 2 | .add => 3 | .scale => 4 | .reqmem => 5) →
      ∃ u : Uop, decodeUop w = .ok (op.instr u) ∧
        u.ra.bits = w.extractLsb' 55 6 ∧ u.rb.bits = w.extractLsb' 49 6 ∧
        u.sz = w.extractLsb' 47 2 ∧ u.rsv = w.extractLsb' 32 15 ∧ u.lit = w.extractLsb' 0 32 ∧
        encodeUop op u = w) ∧
    (6 ≤ (w.extractLsb' 61 3).toNat → decodeUop w = .error .reservedOp)

/-- R54, R55: every 6-bit reference code resolves as the spec's table says, for every N_TMP. -/
def Obligations.ReferenceCodesResolveByTheTable : Prop :=
  ∀ (nTmp : Nat) (lit : Word) (c : BitVec 6),
    decodeRef nTmp lit (RefCode.ofBits c) = refOfCode nTmp lit c

/-- R56: the size codes, their shifts and their byte counts. -/
def Obligations.SizeCodesShiftAndCount : Prop :=
  OperandSize.ofCode? 0b00 = some .byte ∧ OperandSize.ofCode? 0b01 = some .word ∧
  OperandSize.ofCode? 0b10 = some .long ∧ OperandSize.ofCode? 0b11 = none ∧
  shiftOf .byte = 0 ∧ shiftOf .word = 1 ∧ shiftOf .long = 2 ∧
  bytesOf .byte = 1 ∧ bytesOf .word = 2 ∧ bytesOf .long = 4

/-- R63: outside Faulted, `lower` answers DESC_RESERVED with no other effect exactly when the
descriptor is reserved; every other descriptor is accepted or does not fit. The fields `turns` and
`reply` are the model's own (log entries 6 and 8). -/
def Obligations.LowerRejectsReservedDescriptorsExactly : Prop :=
  ∀ (s : State) (e : DescWord) (ts : List Turn),
    s.turns = .host (.lower e) :: ts → s.st ≠ .faulted →
      (reservedDesc e →
        step s = .next { s with turns := ts, reply := refusal .descReserved }) ∧
      (¬ reservedDesc e →
        ∃ t, step s = .next t ∧ (t.reply = okReply ∨ t.reply = refusal .queueFull))

/-- R62, R63: a descriptor's instruction depends on the bits its kind uses alone. That the encoder
writes 0 in the other fields, so that the instruction's own word is `e` with them cleared, is the
model's choice (log entry 13): R62 says only that they are ignored. -/
def Obligations.UnusedDescriptorBitsAreIgnored : Prop :=
  ∀ (e : DescWord) (i : Instr), decodeDesc e = .ok i →
    encode i = .desc (e &&& usedMask (kindOf e)) ∧
    ∀ e' : DescWord, e' &&& usedMask (kindOf e) = e &&& usedMask (kindOf e) →
      decodeDesc e' = .ok i

/-! ## Steps -/

/-- R87, R88: in Running, the executor's step is the instruction of the queue's head word, run with
that word off the queue (and its turn off the list of turns, the model's own, log entry 6). -/
def Obligations.StepRunsTheHeadWord : Prop :=
  ∀ (s : State) (w : UopWord) (rest : List UopWord) (i : Instr),
    s.executorNext → s.st = .running → s.q = w :: rest → decodeUop w = .ok i →
      step s = exec i { s with q := rest, turns := s.turns.tail }

/-- R98: a `lower` of a descriptor that decodes is that instruction run. -/
def Obligations.StepRunsTheLoweredDescriptor : Prop :=
  ∀ (s : State) (e : DescWord) (ts : List Turn) (i : Instr),
    s.turns = .host (.lower e) :: ts → decodeDesc e = .ok i →
      step s = exec i { s with turns := ts }

/-- R38, R87: outside Running the executor applies nothing: its turn passes (the model's choice,
log entries 6 and 7). -/
def Obligations.ExecutorWaitsOutsideRunning : Prop :=
  ∀ s : State, s.executorNext → s.st ≠ .running → step s = .next { s with turns := s.turns.tail }

/-! ## The micro-operations -/

/-- R81, ZERO: the cell RA names becomes 0; nothing else changes; BAD_REF and IMM_WRITE as listed.
-/
def Obligations.ZeroClearsItsCell : Prop :=
  ∀ (u : Uop) (s : State),
    (∀ c, decodeRef s.nTmp u.lit u.ra = some (.cell c) →
      ∃ t, exec (.zero u) s = .next t ∧ WritesAndGoesOn c 0 s t) ∧
    (decodeRef s.nTmp u.lit u.ra = none →
      exec (.zero u) s = .next (enterFault s .badRef (encodeUop .zero u))) ∧
    (u.ra = .imm → exec (.zero u) s = .next (enterFault s .immWrite (encodeUop .zero u))) ∧
    (encodeUop .zero u).extractLsb' 61 3 = 0b000#3

/-- R82, SET: the cell RA names becomes LIT. -/
def Obligations.SetWritesTheLiteral : Prop :=
  ∀ (u : Uop) (s : State),
    (∀ c, decodeRef s.nTmp u.lit u.ra = some (.cell c) →
      ∃ t, exec (.set u) s = .next t ∧ WritesAndGoesOn c u.lit s t) ∧
    (decodeRef s.nTmp u.lit u.ra = none →
      exec (.set u) s = .next (enterFault s .badRef (encodeUop .set u))) ∧
    (u.ra = .imm → exec (.set u) s = .next (enterFault s .immWrite (encodeUop .set u))) ∧
    (encodeUop .set u).extractLsb' 61 3 = 0b001#3

/-- R83, MOV: the cell RA names becomes what RB reads as, a cell or LIT. -/
def Obligations.MovCopiesItsSource : Prop :=
  ∀ (u : Uop) (s : State),
    (∀ c x, decodeRef s.nTmp u.lit u.ra = some (.cell c) → decodeRef s.nTmp u.lit u.rb = some x →
      ∃ t, exec (.mov u) s = .next t ∧
        WritesAndGoesOn c (match x with | .cell y => s.rf.read y | .imm v => v) s t) ∧
    (decodeRef s.nTmp u.lit u.ra = none ∨ decodeRef s.nTmp u.lit u.rb = none →
      exec (.mov u) s = .next (enterFault s .badRef (encodeUop .mov u))) ∧
    (u.ra = .imm → decodeRef s.nTmp u.lit u.rb ≠ none →
      exec (.mov u) s = .next (enterFault s .immWrite (encodeUop .mov u))) ∧
    (encodeUop .mov u).extractLsb' 61 3 = 0b010#3

/-- R84, ADD: the cell RA names becomes its value plus what RB reads as, modulo 2^32, both read
before the write (R75). -/
def Obligations.AddAccumulatesModulo : Prop :=
  ∀ (u : Uop) (s : State),
    (∀ c x, decodeRef s.nTmp u.lit u.ra = some (.cell c) → decodeRef s.nTmp u.lit u.rb = some x →
      ∃ t, exec (.add u) s = .next t ∧
        WritesAndGoesOn c (BitVec.ofNat 32
          (((s.rf.read c).toNat + (match x with | .cell y => s.rf.read y | .imm v => v).toNat) %
            2 ^ 32)) s t) ∧
    (decodeRef s.nTmp u.lit u.ra = none ∨ decodeRef s.nTmp u.lit u.rb = none →
      exec (.add u) s = .next (enterFault s .badRef (encodeUop .add u))) ∧
    (u.ra = .imm → decodeRef s.nTmp u.lit u.rb ≠ none →
      exec (.add u) s = .next (enterFault s .immWrite (encodeUop .add u))) ∧
    (encodeUop .add u).extractLsb' 61 3 = 0b011#3

/-- R85, SCALE: the cell RA names becomes its value times 2^SZ, modulo 2^32; SZ = 11 faults
BAD_UOP, before any other fault. -/
def Obligations.ScaleShiftsBySize : Prop :=
  ∀ (u : Uop) (s : State),
    (∀ c, u.sz ≠ 0b11#2 → decodeRef s.nTmp u.lit u.ra = some (.cell c) →
      ∃ t, exec (.scale u) s = .next t ∧
        WritesAndGoesOn c (BitVec.ofNat 32 ((s.rf.read c).toNat * 2 ^ u.sz.toNat % 2 ^ 32)) s t) ∧
    (u.sz = 0b11#2 → exec (.scale u) s = .next (enterFault s .badUop (encodeUop .scale u))) ∧
    (u.sz ≠ 0b11#2 → decodeRef s.nTmp u.lit u.ra = none →
      exec (.scale u) s = .next (enterFault s .badRef (encodeUop .scale u))) ∧
    (u.sz ≠ 0b11#2 → u.ra = .imm →
      exec (.scale u) s = .next (enterFault s .immWrite (encodeUop .scale u))) ∧
    (encodeUop .scale u).extractLsb' 61 3 = 0b100#3

/-- R86, REQMEM: the address RA reads as is latched in PEND_ADDR and the executor suspends; nothing
else changes, whatever the address; a bad reference faults BAD_REF. A host write leaves the latched
address; where the word was the last one, `resume` goes to Idle. The field `turns` is the model's
own (log entry 6). -/
def Obligations.RequestMemLatchesAndSuspends : Prop :=
  ∀ (u : Uop) (s : State),
    (∀ x, decodeRef s.nTmp u.lit u.ra = some x →
      ∃ t, exec (.reqmem u) s = .next t ∧
        t = { s with
          pendAddr := (match x with | .cell y => s.rf.read y | .imm v => v)
          st := .suspended } ∧
        (∀ k v t', step { t with turns := [.host (.hostWrite k v)] } = .next t' →
          t'.pendAddr = t.pendAddr) ∧
        (s.q = [] → ∀ v t', step { t with turns := [.host (.resume v)] } = .next t' →
          t'.st = .idle)) ∧
    (decodeRef s.nTmp u.lit u.ra = none →
      exec (.reqmem u) s = .next (enterFault s .badRef (encodeUop .reqmem u))) ∧
    (encodeUop .reqmem u).extractLsb' 61 3 = 0b101#3

/-- R78, R124, R126: for every 64-bit word at the head of the queue, the executor's step enters the
first fault of `checkUop`, with the whole word in FINFO, the queue emptied and no register changed;
a word that passes the check completes and records no fault. The field `turns` is the model's own
(log entry 6). -/
def Obligations.ExecutorFaultsAreCheckUops : Prop :=
  ∀ (s : State) (w : UopWord) (rest : List UopWord),
    s.executorNext → s.st = .running → s.q = w :: rest →
      (∀ f, checkUop s.nTmp w = some f → step s = .next { s with
        q := []
        st := .faulted
        fcode := f
        finfo := w
        turns := s.turns.tail }) ∧
      (checkUop s.nTmp w = none →
        ∃ t, step s = .next t ∧ t.st ≠ .faulted ∧ t.q = rest ∧ t.fcode = s.fcode ∧
          t.finfo = s.finfo)

/-- R72: CCR reads zero-extended and keeps bits [7:0] of what is written. -/
def Obligations.CcrExtendsAndTruncates : Prop :=
  ∀ (rf : RegFile) (v : Word),
    (rf.write .ccr v).ccr = v.extractLsb' 0 8 ∧
    (rf.read .ccr).toNat = rf.ccr.toNat ∧
    ((rf.write .ccr 0x000001FF).read .ccr) = 0x000000FF#32

/-- R70, R17: writing a cell of the instance changes exactly that cell, to the value written (CCR
to its low byte), for every cell. -/
def Obligations.WriteChangesExactlyOneCell : Prop :=
  ∀ (rf : RegFile) (c : Cell) (v : Word), c.present rf.tmp.length = true →
    (rf.write c v).read c = storedAs c v ∧
    (∀ x : Cell, x ≠ c → (rf.write c v).read x = rf.read x) ∧
    (rf.write c v).tmp.length = rf.tmp.length

/-! ## Descriptors: what is appended -/

/-- R103, R104: the register-direct kinds append one MOV. -/
def Obligations.DirectKindsAppendTheirMov : Prop :=
  ∀ n : RegNum,
    LowersTo (.dreg n) [wMovIn0D n.val] ∧ LowersTo (.areg n) [wMovIn0A n.val]

/-- R105, R106, R107: the register-indirect kinds, with the step of each size. -/
def Obligations.IndirectKindsAppendTheirFetch : Prop :=
  ∀ (n : RegNum) (sz : OperandSize),
    LowersTo (.aind n) [wReqA n.val, wMovIn0IoBuffer] ∧
    LowersTo (.apost n sz)
      [wReqA n.val, wMovIn0IoBuffer, wAddAImm n.val (1#32 <<< sizeCode sz)] ∧
    LowersTo (.apre n sz)
      [wAddAImm n.val (0#32 - 1#32 <<< sizeCode sz), wReqA n.val, wMovIn0IoBuffer]

/-- R108, R113: base plus displacement, then the fetch. -/
def Obligations.DisplacementKindsAppendBaseAndFetch : Prop :=
  ∀ (n : RegNum) (d1 : Word),
    LowersTo (.adisp n d1) [wMovIn0A n.val, wAddIn0Imm d1, wReqIn0, wMovIn0IoBuffer] ∧
    LowersTo (.pcdisp d1) [wMovIn0Pc, wAddIn0Imm d1, wReqIn0, wMovIn0IoBuffer]

/-- R109, R114: base, displacement, scaled index, then the fetch. -/
def Obligations.IndexedKindsAppendIndexAndFetch : Prop :=
  ∀ (n : RegNum) (d1 : Word) (x : IndexReg) (sc : OperandSize),
    LowersTo (.aidx n d1 x sc)
      [wMovIn0A n.val, wAddIn0Imm d1, wMovIn1X (indexRegCode x), wScaleIn1 (sizeCode sc),
        wAddIn0In1, wReqIn0, wMovIn0IoBuffer] ∧
    LowersTo (.pcidx d1 x sc)
      [wMovIn0Pc, wAddIn0Imm d1, wMovIn1X (indexRegCode x), wScaleIn1 (sizeCode sc),
        wAddIn0In1, wReqIn0, wMovIn0IoBuffer]

/-- R110, R111, R115, R116: two fetches; the index after the first one (post-indexed) or before it
(pre-indexed); the outer displacement before the second. -/
def Obligations.MemoryIndirectKindsAppendTwoFetches : Prop :=
  ∀ (n : RegNum) (d1 : Word) (x : IndexReg) (sc : OperandSize) (d2 : Word),
    LowersTo (.amipost n d1 x sc d2)
      [wMovIn0A n.val, wAddIn0Imm d1, wReqIn0, wMovIn0IoBuffer, wMovIn1X (indexRegCode x),
        wScaleIn1 (sizeCode sc), wAddIn0In1, wAddIn0Imm d2, wReqIn0, wMovIn0IoBuffer] ∧
    LowersTo (.amipre n d1 x sc d2)
      [wMovIn0A n.val, wAddIn0Imm d1, wMovIn1X (indexRegCode x), wScaleIn1 (sizeCode sc),
        wAddIn0In1, wReqIn0, wMovIn0IoBuffer, wAddIn0Imm d2, wReqIn0, wMovIn0IoBuffer] ∧
    LowersTo (.pcmipost d1 x sc d2)
      [wMovIn0Pc, wAddIn0Imm d1, wReqIn0, wMovIn0IoBuffer, wMovIn1X (indexRegCode x),
        wScaleIn1 (sizeCode sc), wAddIn0In1, wAddIn0Imm d2, wReqIn0, wMovIn0IoBuffer] ∧
    LowersTo (.pcmipre d1 x sc d2)
      [wMovIn0Pc, wAddIn0Imm d1, wMovIn1X (indexRegCode x), wScaleIn1 (sizeCode sc),
        wAddIn0In1, wReqIn0, wMovIn0IoBuffer, wAddIn0Imm d2, wReqIn0, wMovIn0IoBuffer]

/-- R117, R118, R119: one fetch at the literal, used as it is. -/
def Obligations.LiteralKindsAppendOneFetch : Prop :=
  ∀ d1 : Word,
    LowersTo (.absw d1) [wReqImm d1, wMovIn0IoBuffer] ∧
    LowersTo (.absl d1) [wReqImm d1, wMovIn0IoBuffer] ∧
    LowersTo (.imm d1) [wReqImm d1, wMovIn0IoBuffer]

/-- R98: `lower` answers FAULTED, then DESC_RESERVED, then QUEUE_FULL, in that order and with no
other effect, or appends the translation whole; Idle becomes Running. The fields `turns` and
`reply` are the model's own (log entries 6 and 8). -/
def Obligations.LowerAppendsWholeOrNothing : Prop :=
  ∀ (s : State) (e : DescWord) (ts : List Turn), s.turns = .host (.lower e) :: ts →
    (s.st = .faulted → step s = .next { s with turns := ts, reply := refusal .faulted }) ∧
    (s.st ≠ .faulted → reservedDesc e →
      step s = .next { s with turns := ts, reply := refusal .descReserved }) ∧
    (s.st ≠ .faulted → ¬ reservedDesc e →
      ∃ seq, translateDesc e = .ok seq ∧
        (s.qDepth < s.q.length + seq.length →
          step s = .next { s with turns := ts, reply := refusal .queueFull }) ∧
        (s.q.length + seq.length ≤ s.qDepth →
          step s = .next { s with
            q := s.q ++ seq
            st := if s.st = .idle then .running else s.st
            turns := ts
            reply := okReply }))

/-- R120: the sequence length and the number of fetches (words with OP = 101) of each kind. -/
def Obligations.SequenceLengthsAndFetchCounts : Prop :=
  ∀ (e : DescWord) (seq : List UopWord), translateDesc e = .ok seq →
    (seq.length, (seq.filter fun w => w.extractLsb' 61 3 == 0b101#3).length) =
      (if kindOf e ≤ 1 then (1, 0)
      else if kindOf e = 2 then (2, 1)
      else if kindOf e ≤ 4 then (3, 1)
      else if kindOf e = 5 ∨ kindOf e = 9 then (4, 1)
      else if kindOf e = 6 ∨ kindOf e = 10 then (7, 1)
      else if kindOf e ≤ 12 then (10, 2)
      else (2, 1))

/-! ## Descriptors: what running the sequence does, from the descriptor's bits to the registers -/

/-- R103, R104: `In0 = D[n]` or `In0 = A[n]`, without a request; no other cell changes. Here and
below, the fields `turns` and `reply` are the model's own (log entries 6 and 8). -/
def Obligations.DirectKindsStageTheRegister : Prop :=
  ∀ (s : State) (e : DescWord), Ready s →
    (kindOf e = 0 →
      translateDesc e = .ok [wMovIn0D (regOf e).val] ∧
      lowerThen 1 e s = .next { s with
        rf := { s.rf with in0 := s.rf.d.get (regOf e) }
        turns := []
        reply := okReply }) ∧
    (kindOf e = 1 →
      translateDesc e = .ok [wMovIn0A (regOf e).val] ∧
      lowerThen 1 e s = .next { s with
        rf := { s.rf with in0 := s.rf.a.get (regOf e) }
        turns := []
        reply := okReply })

/-- R105: a fetch at `A[n]`, staged in In0 through IOBuffer; `A[n]` unchanged. -/
def Obligations.AddressIndirectFetchesAtTheRegister : Prop :=
  ∀ (s : State) (e : DescWord), Ready s → kindOf e = 2 →
    translateDesc e = .ok [wReqA (regOf e).val, wMovIn0IoBuffer] ∧
    FetchesOnce s e 1 1 (s.rf.a.get (regOf e)) s.rf
      fun v => { s.rf with in0 := v, ioBuffer := v }

/-- R106: a fetch at the old `A[n]`, then `A[n]` plus the byte count, modulo 2^32; a failed fetch
leaves `A[n]`. -/
def Obligations.PostIncrementFetchesThenAdds : Prop :=
  ∀ (s : State) (e : DescWord), Ready s → kindOf e = 3 → sizeField e ≠ 3 →
    translateDesc e = .ok
      [wReqA (regOf e).val, wMovIn0IoBuffer, wAddAImm (regOf e).val (stepBytes e)] ∧
    FetchesOnce s e 1 2 (s.rf.a.get (regOf e)) s.rf
      fun v => { s.rf with
        in0 := v
        ioBuffer := v
        a := s.rf.a.set (regOf e).val (s.rf.a.get (regOf e) + stepBytes e) }

/-- R107: `A[n]` minus the byte count, then a fetch there; a failed fetch leaves it decremented. -/
def Obligations.PreDecrementSubtractsThenFetches : Prop :=
  ∀ (s : State) (e : DescWord), Ready s → kindOf e = 4 → sizeField e ≠ 3 →
    translateDesc e = .ok
      [wAddAImm (regOf e).val (0#32 - stepBytes e), wReqA (regOf e).val, wMovIn0IoBuffer] ∧
    FetchesOnce s e 2 1 (s.rf.a.get (regOf e) - stepBytes e)
      { s.rf with a := s.rf.a.set (regOf e).val (s.rf.a.get (regOf e) - stepBytes e) }
      fun v => { s.rf with
        in0 := v
        ioBuffer := v
        a := s.rf.a.set (regOf e).val (s.rf.a.get (regOf e) - stepBytes e) }

/-- R108, R113: a fetch at the base register, or PC, plus D1. -/
def Obligations.DisplacementFetchesAtBasePlusD1 : Prop :=
  ∀ (s : State) (e : DescWord), Ready s → kindOf e = 5 ∨ kindOf e = 9 →
    translateDesc e = .ok
      [if kindOf e = 5 then wMovIn0A (regOf e).val else wMovIn0Pc, wAddIn0Imm (d1Of e), wReqIn0,
        wMovIn0IoBuffer] ∧
    FetchesOnce s e 3 1 (baseValue s.rf e + d1Of e)
      { s.rf with in0 := baseValue s.rf e + d1Of e }
      fun v => { s.rf with in0 := v, ioBuffer := v }

/-- R109, R114: a fetch at the base plus D1 plus the scaled index, left in In1. -/
def Obligations.IndexedFetchesAtBasePlusIndex : Prop :=
  ∀ (s : State) (e : DescWord), Ready s → kindOf e = 6 ∨ kindOf e = 10 → scaleField e ≠ 3 →
    translateDesc e = .ok
      [if kindOf e = 6 then wMovIn0A (regOf e).val else wMovIn0Pc, wAddIn0Imm (d1Of e),
        wMovIn1X (indexCode e), wScaleIn1 (scaleField e), wAddIn0In1, wReqIn0, wMovIn0IoBuffer] ∧
    FetchesOnce s e 6 1 (baseValue s.rf e + d1Of e + scaledIndex s.rf e)
      { s.rf with
        in0 := baseValue s.rf e + d1Of e + scaledIndex s.rf e
        in1 := scaledIndex s.rf e }
      fun v => { s.rf with in0 := v, in1 := scaledIndex s.rf e, ioBuffer := v }

/-- R110, R115: a fetch of the pointer at base plus D1, then one at the pointer plus the scaled
index plus D2. -/
def Obligations.PostIndexedAddsIndexAfterThePointer : Prop :=
  ∀ (s : State) (e : DescWord), Ready s → kindOf e = 7 ∨ kindOf e = 11 → scaleField e ≠ 3 →
    translateDesc e = .ok
      [if kindOf e = 7 then wMovIn0A (regOf e).val else wMovIn0Pc, wAddIn0Imm (d1Of e), wReqIn0,
        wMovIn0IoBuffer, wMovIn1X (indexCode e), wScaleIn1 (scaleField e), wAddIn0In1,
        wAddIn0Imm (d2Of e), wReqIn0, wMovIn0IoBuffer] ∧
    FetchesTwice s e 3 6 1 (baseValue s.rf e + d1Of e)
      (fun p => p + scaledIndex s.rf e + d2Of e)
      fun v => { s.rf with in0 := v, in1 := scaledIndex s.rf e, ioBuffer := v }

/-- R111, R116: a fetch of the pointer at base plus D1 plus the scaled index, then one at the
pointer plus D2. -/
def Obligations.PreIndexedAddsIndexBeforeThePointer : Prop :=
  ∀ (s : State) (e : DescWord), Ready s → kindOf e = 8 ∨ kindOf e = 12 → scaleField e ≠ 3 →
    translateDesc e = .ok
      [if kindOf e = 8 then wMovIn0A (regOf e).val else wMovIn0Pc, wAddIn0Imm (d1Of e),
        wMovIn1X (indexCode e), wScaleIn1 (scaleField e), wAddIn0In1, wReqIn0, wMovIn0IoBuffer,
        wAddIn0Imm (d2Of e), wReqIn0, wMovIn0IoBuffer] ∧
    FetchesTwice s e 6 3 1 (baseValue s.rf e + d1Of e + scaledIndex s.rf e)
      (fun p => p + d2Of e)
      fun v => { s.rf with in0 := v, in1 := scaledIndex s.rf e, ioBuffer := v }

/-- R117, R118, R119: a fetch at D1 itself; In0 is the answer, also for the immediate kind. -/
def Obligations.LiteralKindsFetchAtD1 : Prop :=
  ∀ (s : State) (e : DescWord), Ready s → kindOf e = 13 ∨ kindOf e = 14 ∨ kindOf e = 15 →
    translateDesc e = .ok [wReqImm (d1Of e), wMovIn0IoBuffer] ∧
    FetchesOnce s e 1 1 (d1Of e) s.rf fun v => { s.rf with in0 := v, ioBuffer := v }

/-! ## Host commands -/

/-- R93: `resume(v)`. Here and in the other statements on host commands, the fields `turns` and
`reply` are the model's own (log entries 6 and 8). -/
def Obligations.ResumeStoresTheAnswerAndGoesOn : Prop :=
  ∀ (s : State) (v : Word) (ts : List Turn), s.turns = .host (.resume v) :: ts →
    (s.st = .suspended → step s = .next { s with
      rf := { s.rf with ioBuffer := v }
      st := if s.q = [] then .idle else .running
      turns := ts
      reply := okReply }) ∧
    (s.st ≠ .suspended → step s = .next { s with turns := ts, reply := refusal .notSuspended })

/-- R94: `fail()`. -/
def Obligations.FailAbortsWithFetchFail : Prop :=
  ∀ (s : State) (ts : List Turn), s.turns = .host .fail :: ts →
    (s.st = .suspended → step s = .next { s with
      q := []
      st := .faulted
      fcode := .fetchFail
      finfo := s.pendAddr.setWidth 64
      turns := ts
      reply := okReply }) ∧
    (s.st ≠ .suspended → step s = .next { s with turns := ts, reply := refusal .notSuspended })

/-- R95: `flush()`. -/
def Obligations.FlushDiscardsTheQueue : Prop :=
  ∀ (s : State) (ts : List Turn), s.turns = .host .flush :: ts →
    (s.st = .suspended → step s = .next { s with turns := ts, reply := refusal .busy }) ∧
    (s.st ≠ .suspended → step s = .next { s with
      q := []
      st := if s.st = .running then .idle else s.st
      turns := ts
      reply := okReply })

/-- R96: `ack_fault()`. -/
def Obligations.AckFaultClearsAndIdles : Prop :=
  ∀ (s : State) (ts : List Turn), s.turns = .host .ackFault :: ts →
    (s.st = .faulted → step s = .next { s with
      fcode := .none
      finfo := 0
      st := .idle
      turns := ts
      reply := okReply }) ∧
    (s.st ≠ .faulted → step s = .next { s with turns := ts, reply := refusal .notFaulted })

/-- R76: `host_read` and `host_write`. -/
def Obligations.HostPortReadsAndWritesCells : Prop :=
  ∀ (s : State) (ts : List Turn) (c : BitVec 6),
    (s.turns = .host (.hostRead c) :: ts →
      (∀ x, refOfCode s.nTmp 0 c = some (.cell x) → step s = .next { s with
        turns := ts
        reply := some { response := .ok, value := some (s.rf.read x) } }) ∧
      ((∀ x, refOfCode s.nTmp 0 c ≠ some (.cell x)) →
        step s = .next { s with turns := ts, reply := refusal .badRef })) ∧
    (∀ v, s.turns = .host (.hostWrite c v) :: ts →
      (∀ x, refOfCode s.nTmp 0 c = some (.cell x) → s.st ≠ .running →
        ∃ t, step s = .next t ∧ t.rf.read x = storedAs x v ∧ CellsButUnchanged x s t ∧
          { t with rf := s.rf } = { s with turns := ts, reply := okReply }) ∧
      (∀ x, refOfCode s.nTmp 0 c = some (.cell x) → s.st = .running →
        step s = .next { s with turns := ts, reply := refusal .busy }) ∧
      ((∀ x, refOfCode s.nTmp 0 c ≠ some (.cell x)) →
        step s = .next { s with turns := ts, reply := refusal .badRef }))

/-- R30: the four status words; a status read changes nothing but the reply. The word PEND_ADDR
outside Suspended is a free value (R28; the draw counter it advances is the model's own, log entry
5). -/
def Obligations.StatusWordsShowTheControlState : Prop :=
  ∀ (s : State) (ts : List Turn) (sel : BitVec 2), s.turns = .host (.statusRead sel) :: ts →
    s.q.length ≤ 255 →
    ∃ (v : Word) (k : Nat),
      step s = .next { s with
        turns := ts
        reply := some { response := .ok, value := some v }
        draws := k } ∧
      (sel = 0 →
        (v.extractLsb' 0 2).toNat = (match s.st with
          | .idle => 0 | .running => 1 | .suspended => 2 | .faulted => 3) ∧
        v.extractLsb' 2 2 = 0 ∧
        (v.extractLsb' 4 3).toNat = (match s.fcode with
          | .none => 0 | .fetchFail => 1 | .immWrite => 2 | .badRef => 3 | .badUop => 4) ∧
        v.extractLsb' 7 1 = 0 ∧
        (v.extractLsb' 8 8).toNat = s.q.length ∧
        v.extractLsb' 16 16 = 0) ∧
      (sel = 1 → s.st = .suspended → v = s.pendAddr) ∧
      (sel = 2 → v = s.finfo.extractLsb' 0 32) ∧
      (sel = 3 → v = s.finfo.extractLsb' 32 32)

/-- R139: `reset()` is accepted in every state: queue empty, Idle, no fault recorded; the
parameters stay; of the register-file cells and PEND_ADDR nothing is said, since they are
unspecified. A later `resume` or `fail` is refused. -/
def Obligations.ResetCommandReachesIdle : Prop :=
  ∀ (s : State) (ts : List Turn), s.turns = .host .reset :: ts →
    ∃ t, step s = .next t ∧ t.q = [] ∧ t.st = .idle ∧ t.fcode = .none ∧ t.finfo = 0 ∧
      t.turns = ts ∧ t.qDepth = s.qDepth ∧ t.nTmp = s.nTmp ∧
      ∀ (c : Command) (us : List Turn), ((∃ v, c = .resume v) ∨ c = .fail) →
        ts = .host c :: us →
          step t = .next { t with turns := us, reply := refusal .notSuspended }

/-- R33: the control state after reset. -/
def Obligations.ResetStateIsIdle : Prop :=
  State.reset.st = .idle ∧ State.reset.q = [] ∧ State.reset.fcode = .none ∧ State.reset.finfo = 0

/-- R130: every command gets an answer; each refusal code is answered by the commands and in the
cases its row lists and in no other; a refused command changes nothing but the reply (and its turn,
the model's own, is taken off the list). The codes are the row numbers. -/
def Obligations.RefusalsAreTheTablesAndChangeNothing : Prop :=
  (∀ (s : State) (c : Command) (ts : List Turn), s.turns = .host c :: ts →
    ∃ (t : State) (r : Reply), step s = .next t ∧ t.reply = some r ∧
      (r.response ≠ .ok → t = { s with turns := ts, reply := some r }) ∧
      (r.response = .descReserved ↔ ∃ e, c = .lower e ∧ s.st ≠ .faulted ∧ reservedDesc e) ∧
      (r.response = .queueFull ↔ ∃ e seq, c = .lower e ∧ s.st ≠ .faulted ∧
        translateDesc e = .ok seq ∧ s.qDepth < s.q.length + seq.length) ∧
      (r.response = .faulted ↔ ∃ e, c = .lower e ∧ s.st = .faulted) ∧
      (r.response = .busy ↔
        (∃ k v x, c = .hostWrite k v ∧ refOfCode s.nTmp 0 k = some (.cell x) ∧ s.st = .running) ∨
        (c = .flush ∧ s.st = .suspended)) ∧
      (r.response = .badRef ↔
        ∃ k, (c = .hostRead k ∨ ∃ v, c = .hostWrite k v) ∧
          ∀ x, refOfCode s.nTmp 0 k ≠ some (.cell x)) ∧
      (r.response = .notSuspended ↔ ((∃ v, c = .resume v) ∨ c = .fail) ∧ s.st ≠ .suspended) ∧
      (r.response = .notFaulted ↔ c = .ackFault ∧ s.st ≠ .faulted)) ∧
  Response.ok.code = 0 ∧ Response.descReserved.code = 1 ∧ Response.queueFull.code = 2 ∧
  Response.faulted.code = 3 ∧ Response.busy.code = 4 ∧ Response.badRef.code = 5 ∧
  Response.notSuspended.code = 6 ∧ Response.notFaulted.code = 7

/-! ## The whole machine -/

/-- The block's invariant (10_state.md R26, R27; 00_scope.md R8): every step keeps it, from every
state that meets it. The bounds on N_TMP and Q_DEPTH are R8's. -/
def Obligations.EveryStepKeepsTheInvariant : Prop :=
  ∀ s t : State, Inv s → step s = .next t → Inv t

/-- The invariant holds at reset; the parameter values there are the model's (log entries 1 and 2).
-/
def Obligations.ResetStateMeetsTheInvariant : Prop := Inv State.reset

/-- From a state that meets the invariant the machine never stops: a step is a next state. Outside
Running an executor's turn passes (the model's choice, log entries 6 and 7). -/
def Obligations.TheMachineNeverStops : Prop :=
  ∀ s : State, Inv s → ∃ t, step s = .next t

/-- R89: any finite list of executor turns and host commands is taken, one a step and none skipped,
whatever its order. The list of turns is the model's own (log entry 6); what each turn does is said
by the statements on the executor's step and on the commands. -/
def Obligations.EveryInterleavingRuns : Prop :=
  ∀ (ts us : List Turn) (s : State), Inv s → s.turns = ts ++ us →
    ∃ t, runSteps ts.length s = .next t ∧ t.turns = us

/-- R89: the executor's step is weakly fair. From every state that meets the invariant the
executor's turn comes after one or more steps, whatever finite number of commands the host gives
first; and since the invariant is kept, it comes again and again. With no turn chosen, a step draws
the next ones, a free number of free commands and then the executor's turn (the model's own, log
entry 6). -/
def Obligations.TheExecutorIsWeaklyFair : Prop :=
  (∀ s : State, Inv s → ∃ (k : Nat) (t : State),
    runSteps (k + 1) s = .next t ∧ t.executorNext ∧ Inv t) ∧
  (∀ s : State, s.turns = [] → step s = .next { s with
    turns := (Config.freeCommands s.draws).map Turn.host ++ [.executor]
    draws := s.draws + 1 })

/-- R65, R123: words the translator emits never fault: from the invariant, no step records
IMM_WRITE, BAD_REF or BAD_UOP. -/
def Obligations.TranslatorOutputNeverFaults : Prop :=
  ∀ s t : State, Inv s → NoExecutorFault s → step s = .next t → NoExecutorFault t

/-- R128: Faulted is left by `ack_fault`, which clears the record and restores nothing, or by
reset; until then the record and the empty queue stay. The fields `turns` and `reply` are the
model's own (log entries 6 and 8). -/
def Obligations.FaultedIsLeftByAckOrResetAlone : Prop :=
  ∀ s t : State, s.st = .faulted → step s = .next t →
    (t.st = .faulted ∧ t.fcode = s.fcode ∧ t.finfo = s.finfo ∧ (s.q = [] → t.q = [])) ∨
    (∃ ts, s.turns = .host .ackFault :: ts ∧ t = { s with
      fcode := .none
      finfo := 0
      st := .idle
      turns := ts
      reply := okReply }) ∨
    (∃ ts, s.turns = .host .reset :: ts)

/-- R38, R92: Suspended is left by `resume`, `fail` or reset; until then PEND_ADDR stays, and no
micro-operation is applied: the queue can only grow. -/
def Obligations.SuspendedIsLeftByAnAnswerAlone : Prop :=
  ∀ s t : State, s.st = .suspended → step s = .next t →
    (t.st = .suspended ∧ t.pendAddr = s.pendAddr ∧ ∃ l, t.q = s.q ++ l) ∨
    (∃ v ts, s.turns = .host (.resume v) :: ts) ∨
    (∃ ts, s.turns = .host .fail :: ts) ∨
    (∃ ts, s.turns = .host .reset :: ts)

/-- R35, R45: a request is issued by a REQMEM word at the head of the queue alone, and its address
is the value RA reads as, unchanged. -/
def Obligations.RequestsComeFromRequestMemAlone : Prop :=
  ∀ s t : State, s.st ≠ .suspended → step s = .next t → t.st = .suspended →
    s.executorNext ∧ s.st = .running ∧ ∃ w x, s.q = w :: t.q ∧ w.extractLsb' 61 3 = 0b101#3 ∧
      refOfCode s.nTmp (w.extractLsb' 0 32) (w.extractLsb' 55 6) = some x ∧
      t.pendAddr = (match x with | .cell y => s.rf.read y | .imm v => v)

/-- R26: the queue changes by the executor taking its head, by `lower` appending a translation at
the tail, or by being emptied whole by `flush`, fault entry or reset. Whose turn it is, is the
model's own (log entry 6). -/
def Obligations.QueueChangesOnlyAtItsEnds : Prop :=
  ∀ s t : State, step s = .next t →
    t.q = s.q ∨
    (s.executorNext ∧ s.st = .running ∧ ∃ w, s.q = w :: t.q) ∨
    (∃ e ts seq, s.turns = .host (.lower e) :: ts ∧ translateDesc e = .ok seq ∧ t.q = s.q ++ seq) ∨
    (t.q = [] ∧ (t.st = .faulted ∨ (∃ ts, s.turns = .host .flush :: ts) ∨
      ∃ ts, s.turns = .host .reset :: ts))

/-- R18, R21, R22, R24: running words the translator emitted never changes a data register, PC, CCR
or a temporary. -/
def Obligations.TranslatorOutputKeepsDataRegistersPcAndCcr : Prop :=
  ∀ s t : State, QueueEmitted s → s.executorNext → step s = .next t →
    t.rf.d = s.rf.d ∧ t.rf.pc = s.rf.pc ∧ t.rf.ccr = s.rf.ccr ∧ t.rf.tmp = s.rf.tmp

/-- R17, R21, R80: a cell changes only as the named destination of a ZERO, SET, MOV, ADD or SCALE
at the head of the queue, by a `host_write` that names it, by `resume` (IOBuffer), or by reset: PC
never advances, no flag is set as a side effect. Whose turn it is, is the model's own (log entry
6). -/
def Obligations.CellsChangeOnlyWhenNamed : Prop :=
  ∀ (s t : State) (c : Cell), step s = .next t → t.rf.read c ≠ s.rf.read c →
    (s.executorNext ∧ s.st = .running ∧ ∃ w rest, s.q = w :: rest ∧
      (w.extractLsb' 61 3).toNat ≤ 4 ∧
      refOfCode s.nTmp 0 (w.extractLsb' 55 6) = some (.cell c)) ∨
    (∃ k v ts, s.turns = .host (.hostWrite k v) :: ts ∧ s.st ≠ .running ∧
      refOfCode s.nTmp 0 k = some (.cell c)) ∨
    (∃ v ts, s.turns = .host (.resume v) :: ts ∧ s.st = .suspended ∧ c = .ioBuffer) ∨
    (∃ ts, s.turns = .host .reset :: ts)

/-- R8: N_TMP and Q_DEPTH are parameters: no step changes them. -/
def Obligations.ParametersNeverChange : Prop :=
  ∀ s t : State, step s = .next t → t.nTmp = s.nTmp ∧ t.qDepth = s.qDepth

/-- R146: a `host_write` to IOBuffer while Suspended is overwritten by the `resume` that follows:
the end state is that of the `resume` alone. The list of turns is the model's own (log entry 6). -/
def Obligations.ResumeOverwritesAHostWriteToIoBuffer : Prop :=
  ∀ (s : State) (w v : Word), s.st = .suspended →
    runSteps 2 { s with turns := [.host (.hostWrite 0x14 w), .host (.resume v)] } =
      runSteps 1 { s with turns := [.host (.resume v)] }
end

