-- ==== Sys2Proof/Laws/Decode.lean ====
section
/-! SUPPORT. The small lemmas of the encoding tables. -/

namespace Sys2Proof

@[simp] theorem regOfBits_regBits (n : RegNum) : regOfBits (regBits n) = n := rfl

@[simp] theorem regBits_regOfBits (b : BitVec 3) : regBits (regOfBits b) = b := rfl

@[simp] theorem OperandSize.ofCode?_code (sz : OperandSize) :
    OperandSize.ofCode? sz.code = some sz := by
  cases sz <;> rfl

theorem OperandSize.ofCode?_eq_none {c : BitVec 2} : OperandSize.ofCode? c = none ↔ c = 3#2 := by
  revert c; decide

@[simp] theorem opOfBits?_bits (op : OpCode) : opOfBits? op.bits = some op := by
  cases op <;> rfl

theorem opOfBits?_eq_some {b : BitVec 3} {op : OpCode} : opOfBits? b = some op ↔ b = op.bits := by
  cases op <;> (revert b; decide)

/-- Every 6-bit code is written back as it was read. -/
@[simp] theorem RefCode.bits_ofBits (c : BitVec 6) : (RefCode.ofBits c).bits = c := by
  revert c; decide

/-- A reference read from a code is a code of R54. -/
@[simp] theorem RefCode.wf_ofBits (c : BitVec 6) : (RefCode.ofBits c).wf = true := by
  revert c; decide

theorem IndexReg.index_of_fields (x : IndexReg) :
    (if x.xa = 0b0#1 then IndexReg.d (regOfBits x.xn) else .a (regOfBits x.xn)) = x := by
  cases x <;> rfl

/-! ### Fields of a packed word -/

theorem place_getLsbD {k n lo : Nat} (f : BitVec k) (i : Nat) :
    (place n lo f).getLsbD i = (decide (i < n) && (decide (lo ≤ i) && f.getLsbD (i - lo))) := by
  simp only [place, BitVec.getLsbD_shiftLeft, BitVec.getLsbD_setWidth]
  grind

/-- A field is read back from where it was placed. -/
theorem extract_place_self {k n lo : Nat} (f : BitVec k) (h : lo + k ≤ n) :
    (place n lo f).extractLsb' lo k = f := by
  ext i hi
  simp only [BitVec.getElem_extractLsb', place_getLsbD, BitVec.getLsbD_eq_getElem hi,
    Nat.add_sub_cancel_left]
  grind

/-- A field placed elsewhere does not show. -/
theorem extract_place_ne {k n lo s l : Nat} (f : BitVec k) (h : lo + k ≤ s ∨ s + l ≤ lo) :
    (place n lo f).extractLsb' s l = 0#l := by
  ext i hi
  simp only [BitVec.getElem_extractLsb', place_getLsbD, BitVec.getElem_zero, Bool.and_eq_false_imp,
    decide_eq_true_eq]
  intro _ _
  rcases h with h | h
  · exact BitVec.getLsbD_of_ge _ _ (by omega)
  · omega

theorem encodeUop_op (op : OpCode) (u : Uop) : (encodeUop op u).extractLsb' 61 3 = op.bits := by
  simp [encodeUop, BitVec.extractLsb'_or, extract_place_self, extract_place_ne]

theorem packDesc_kind (kind : BitVec 5) (reg : BitVec 3) (sz : BitVec 2) (xa : BitVec 1)
    (xn : BitVec 3) (sc : BitVec 2) (d1 d2 : Word) :
    (packDesc kind reg sz xa xn sc d1 d2).extractLsb' 0 5 = kind := by
  simp [packDesc, BitVec.extractLsb'_or, extract_place_self, extract_place_ne]

/-- A word that decodes is an operation applied to its fields. -/
theorem decodeUop_eq_ok {w : UopWord} {i : Instr} (h : decodeUop w = .ok i) :
    ∃ op, opOfBits? (w.extractLsb' 61 3) = some op ∧ i = op.instr (uopFields w) := by
  unfold decodeUop at h
  cases ho : opOfBits? (w.extractLsb' 61 3) with
  | none => simp [ho] at h
  | some op => exact ⟨op, rfl, by simpa [ho] using h.symm⟩

/-- Which instructions are descriptors. -/
def Instr.isDesc : Instr → Bool
  | .zero _ | .set _ | .mov _ | .add _ | .scale _ | .reqmem _ => false
  | _ => true

theorem withSize_ok {e : DescWord} {k : OperandSize → Instr} {i : Instr}
    (h : withSize e k = .ok i) : ∃ sz, OperandSize.ofCode? (descSz e) = some sz ∧ i = k sz := by
  unfold withSize at h
  cases hs : OperandSize.ofCode? (descSz e) <;> simp_all

theorem withScale_ok {e : DescWord} {k : OperandSize → Instr} {i : Instr}
    (h : withScale e k = .ok i) : ∃ sc, OperandSize.ofCode? (descSc e) = some sc ∧ i = k sc := by
  unfold withScale at h
  cases hs : OperandSize.ofCode? (descSc e) <;> simp_all

/-- A descriptor word decodes to a descriptor. -/
theorem decodeDesc_isDesc {e : DescWord} {i : Instr} (h : decodeDesc e = .ok i) :
    i.isDesc = true := by
  simp only [decodeDesc] at h
  split at h
  case h_4 | h_5 => obtain ⟨_, _, rfl⟩ := withSize_ok h; rfl
  case h_7 | h_8 | h_9 | h_11 | h_12 | h_13 => obtain ⟨_, _, rfl⟩ := withScale_ok h; rfl
  case h_17 => cases h
  all_goals simp only [Except.ok.injEq] at h; subst h; rfl

end Sys2Proof
end

