-- ==== Sys2Proof/Laws/State.lean ====
section
/-! SUPPORT. What each update of the state does to each field, one lemma per field per update. -/

namespace Sys2Proof.Machine

variable (s : State)

/-! ### `State.write` -/

@[simp] theorem State.write_rf (c : Cell) (v : Word) : (s.write c v).rf = s.rf.write c v := rfl
@[simp] theorem State.write_q (c : Cell) (v : Word) : (s.write c v).q = s.q := rfl
@[simp] theorem State.write_st (c : Cell) (v : Word) : (s.write c v).st = s.st := rfl
@[simp] theorem State.write_pendAddr (c : Cell) (v : Word) :
    (s.write c v).pendAddr = s.pendAddr := rfl
@[simp] theorem State.write_fcode (c : Cell) (v : Word) : (s.write c v).fcode = s.fcode := rfl
@[simp] theorem State.write_finfo (c : Cell) (v : Word) : (s.write c v).finfo = s.finfo := rfl
@[simp] theorem State.write_qDepth (c : Cell) (v : Word) : (s.write c v).qDepth = s.qDepth := rfl
@[simp] theorem State.write_turns (c : Cell) (v : Word) : (s.write c v).turns = s.turns := rfl
@[simp] theorem State.write_reply (c : Cell) (v : Word) : (s.write c v).reply = s.reply := rfl
@[simp] theorem State.write_draws (c : Cell) (v : Word) : (s.write c v).draws = s.draws := rfl

/-! ### `State.faultEntry` -/

@[simp] theorem State.faultEntry_rf (f : FaultCode) (w : BitVec 64) :
    (s.faultEntry f w).rf = s.rf := rfl
@[simp] theorem State.faultEntry_q (f : FaultCode) (w : BitVec 64) :
    (s.faultEntry f w).q = [] := rfl
@[simp] theorem State.faultEntry_st (f : FaultCode) (w : BitVec 64) :
    (s.faultEntry f w).st = .faulted := rfl
@[simp] theorem State.faultEntry_pendAddr (f : FaultCode) (w : BitVec 64) :
    (s.faultEntry f w).pendAddr = s.pendAddr := rfl
@[simp] theorem State.faultEntry_fcode (f : FaultCode) (w : BitVec 64) :
    (s.faultEntry f w).fcode = f := rfl
@[simp] theorem State.faultEntry_finfo (f : FaultCode) (w : BitVec 64) :
    (s.faultEntry f w).finfo = w := rfl
@[simp] theorem State.faultEntry_qDepth (f : FaultCode) (w : BitVec 64) :
    (s.faultEntry f w).qDepth = s.qDepth := rfl
@[simp] theorem State.faultEntry_turns (f : FaultCode) (w : BitVec 64) :
    (s.faultEntry f w).turns = s.turns := rfl
@[simp] theorem State.faultEntry_reply (f : FaultCode) (w : BitVec 64) :
    (s.faultEntry f w).reply = s.reply := rfl
@[simp] theorem State.faultEntry_draws (f : FaultCode) (w : BitVec 64) :
    (s.faultEntry f w).draws = s.draws := rfl
@[simp] theorem State.faultEntry_nTmp (f : FaultCode) (w : BitVec 64) : (s.faultEntry f w).nTmp = s.nTmp := rfl

/-! ### `State.leaveFault` -/

@[simp] theorem State.leaveFault_rf : (s.leaveFault).rf = s.rf := rfl
@[simp] theorem State.leaveFault_q : (s.leaveFault).q = s.q := rfl
@[simp] theorem State.leaveFault_st : (s.leaveFault).st = .idle := rfl
@[simp] theorem State.leaveFault_pendAddr : (s.leaveFault).pendAddr = s.pendAddr := rfl
@[simp] theorem State.leaveFault_fcode : (s.leaveFault).fcode = .none := rfl
@[simp] theorem State.leaveFault_finfo : (s.leaveFault).finfo = 0 := rfl
@[simp] theorem State.leaveFault_qDepth : (s.leaveFault).qDepth = s.qDepth := rfl
@[simp] theorem State.leaveFault_turns : (s.leaveFault).turns = s.turns := rfl
@[simp] theorem State.leaveFault_reply : (s.leaveFault).reply = s.reply := rfl
@[simp] theorem State.leaveFault_draws : (s.leaveFault).draws = s.draws := rfl
@[simp] theorem State.leaveFault_nTmp : (s.leaveFault).nTmp = s.nTmp := rfl

/-! ### `State.proceed` -/

@[simp] theorem State.proceed_rf : (s.proceed).rf = s.rf := rfl
@[simp] theorem State.proceed_q : (s.proceed).q = s.q := rfl
@[simp] theorem State.proceed_st : (s.proceed).st = idleOrRunning s.q := rfl
@[simp] theorem State.proceed_pendAddr : (s.proceed).pendAddr = s.pendAddr := rfl
@[simp] theorem State.proceed_fcode : (s.proceed).fcode = s.fcode := rfl
@[simp] theorem State.proceed_finfo : (s.proceed).finfo = s.finfo := rfl
@[simp] theorem State.proceed_qDepth : (s.proceed).qDepth = s.qDepth := rfl
@[simp] theorem State.proceed_turns : (s.proceed).turns = s.turns := rfl
@[simp] theorem State.proceed_reply : (s.proceed).reply = s.reply := rfl
@[simp] theorem State.proceed_draws : (s.proceed).draws = s.draws := rfl
@[simp] theorem State.proceed_nTmp : (s.proceed).nTmp = s.nTmp := rfl

/-! ### `State.suspend` -/

@[simp] theorem State.suspend_rf (a : Word) : (s.suspend a).rf = s.rf := rfl
@[simp] theorem State.suspend_q (a : Word) : (s.suspend a).q = s.q := rfl
@[simp] theorem State.suspend_st (a : Word) : (s.suspend a).st = .suspended := rfl
@[simp] theorem State.suspend_pendAddr (a : Word) : (s.suspend a).pendAddr = a := rfl
@[simp] theorem State.suspend_fcode (a : Word) : (s.suspend a).fcode = s.fcode := rfl
@[simp] theorem State.suspend_finfo (a : Word) : (s.suspend a).finfo = s.finfo := rfl
@[simp] theorem State.suspend_qDepth (a : Word) : (s.suspend a).qDepth = s.qDepth := rfl
@[simp] theorem State.suspend_turns (a : Word) : (s.suspend a).turns = s.turns := rfl
@[simp] theorem State.suspend_reply (a : Word) : (s.suspend a).reply = s.reply := rfl
@[simp] theorem State.suspend_draws (a : Word) : (s.suspend a).draws = s.draws := rfl
@[simp] theorem State.suspend_nTmp (a : Word) : (s.suspend a).nTmp = s.nTmp := rfl

/-! ### `State.answer` -/

@[simp] theorem State.answer_rf (r : Response) (v : Option Word) : (s.answer r v).rf = s.rf := rfl
@[simp] theorem State.answer_q (r : Response) (v : Option Word) : (s.answer r v).q = s.q := rfl
@[simp] theorem State.answer_st (r : Response) (v : Option Word) : (s.answer r v).st = s.st := rfl
@[simp] theorem State.answer_pendAddr (r : Response) (v : Option Word) :
    (s.answer r v).pendAddr = s.pendAddr := rfl
@[simp] theorem State.answer_fcode (r : Response) (v : Option Word) :
    (s.answer r v).fcode = s.fcode := rfl
@[simp] theorem State.answer_finfo (r : Response) (v : Option Word) :
    (s.answer r v).finfo = s.finfo := rfl
@[simp] theorem State.answer_qDepth (r : Response) (v : Option Word) :
    (s.answer r v).qDepth = s.qDepth := rfl
@[simp] theorem State.answer_turns (r : Response) (v : Option Word) :
    (s.answer r v).turns = s.turns := rfl
@[simp] theorem State.answer_reply (r : Response) (v : Option Word) :
    (s.answer r v).reply = some ⟨r, v⟩ := rfl
@[simp] theorem State.answer_draws (r : Response) (v : Option Word) :
    (s.answer r v).draws = s.draws := rfl
@[simp] theorem State.answer_nTmp (r : Response) (v : Option Word) : (s.answer r v).nTmp = s.nTmp := rfl

/-! ### `State.enqueue` -/

@[simp] theorem State.enqueue_rf (l : List UopWord) : (s.enqueue l).rf = s.rf := rfl
@[simp] theorem State.enqueue_q (l : List UopWord) : (s.enqueue l).q = s.q ++ l := rfl
@[simp] theorem State.enqueue_st (l : List UopWord) :
    (s.enqueue l).st = if s.st = .idle then .running else s.st := rfl
@[simp] theorem State.enqueue_pendAddr (l : List UopWord) :
    (s.enqueue l).pendAddr = s.pendAddr := rfl
@[simp] theorem State.enqueue_fcode (l : List UopWord) : (s.enqueue l).fcode = s.fcode := rfl
@[simp] theorem State.enqueue_finfo (l : List UopWord) : (s.enqueue l).finfo = s.finfo := rfl
@[simp] theorem State.enqueue_qDepth (l : List UopWord) : (s.enqueue l).qDepth = s.qDepth := rfl
@[simp] theorem State.enqueue_turns (l : List UopWord) : (s.enqueue l).turns = s.turns := rfl
@[simp] theorem State.enqueue_reply (l : List UopWord) : (s.enqueue l).reply = s.reply := rfl
@[simp] theorem State.enqueue_draws (l : List UopWord) : (s.enqueue l).draws = s.draws := rfl
@[simp] theorem State.enqueue_nTmp (l : List UopWord) : (s.enqueue l).nTmp = s.nTmp := rfl

/-! ### `State.popped` -/

@[simp] theorem State.popped_rf (l : List UopWord) : (s.popped l).rf = s.rf := rfl
@[simp] theorem State.popped_q (l : List UopWord) : (s.popped l).q = l := rfl
@[simp] theorem State.popped_st (l : List UopWord) : (s.popped l).st = s.st := rfl
@[simp] theorem State.popped_pendAddr (l : List UopWord) : (s.popped l).pendAddr = s.pendAddr := rfl
@[simp] theorem State.popped_fcode (l : List UopWord) : (s.popped l).fcode = s.fcode := rfl
@[simp] theorem State.popped_finfo (l : List UopWord) : (s.popped l).finfo = s.finfo := rfl
@[simp] theorem State.popped_qDepth (l : List UopWord) : (s.popped l).qDepth = s.qDepth := rfl
@[simp] theorem State.popped_turns (l : List UopWord) : (s.popped l).turns = s.turns := rfl
@[simp] theorem State.popped_reply (l : List UopWord) : (s.popped l).reply = s.reply := rfl
@[simp] theorem State.popped_draws (l : List UopWord) : (s.popped l).draws = s.draws := rfl
@[simp] theorem State.popped_nTmp (l : List UopWord) : (s.popped l).nTmp = s.nTmp := rfl

/-! ### `State.withTurns` -/

@[simp] theorem State.withTurns_rf (ts : List Turn) : (s.withTurns ts).rf = s.rf := rfl
@[simp] theorem State.withTurns_q (ts : List Turn) : (s.withTurns ts).q = s.q := rfl
@[simp] theorem State.withTurns_st (ts : List Turn) : (s.withTurns ts).st = s.st := rfl
@[simp] theorem State.withTurns_pendAddr (ts : List Turn) :
    (s.withTurns ts).pendAddr = s.pendAddr := rfl
@[simp] theorem State.withTurns_fcode (ts : List Turn) : (s.withTurns ts).fcode = s.fcode := rfl
@[simp] theorem State.withTurns_finfo (ts : List Turn) : (s.withTurns ts).finfo = s.finfo := rfl
@[simp] theorem State.withTurns_qDepth (ts : List Turn) : (s.withTurns ts).qDepth = s.qDepth := rfl
@[simp] theorem State.withTurns_turns (ts : List Turn) : (s.withTurns ts).turns = ts := rfl
@[simp] theorem State.withTurns_reply (ts : List Turn) : (s.withTurns ts).reply = s.reply := rfl
@[simp] theorem State.withTurns_draws (ts : List Turn) : (s.withTurns ts).draws = s.draws := rfl
@[simp] theorem State.withTurns_nTmp (ts : List Turn) : (s.withTurns ts).nTmp = s.nTmp := rfl

/-! ### `State.drawTurns` -/

@[simp] theorem State.drawTurns_rf : (s.drawTurns).rf = s.rf := rfl
@[simp] theorem State.drawTurns_q : (s.drawTurns).q = s.q := rfl
@[simp] theorem State.drawTurns_st : (s.drawTurns).st = s.st := rfl
@[simp] theorem State.drawTurns_pendAddr : (s.drawTurns).pendAddr = s.pendAddr := rfl
@[simp] theorem State.drawTurns_fcode : (s.drawTurns).fcode = s.fcode := rfl
@[simp] theorem State.drawTurns_finfo : (s.drawTurns).finfo = s.finfo := rfl
@[simp] theorem State.drawTurns_qDepth : (s.drawTurns).qDepth = s.qDepth := rfl
@[simp] theorem State.drawTurns_turns :
    (s.drawTurns).turns = (Config.freeCommands s.draws).map Turn.host ++ [.executor] := rfl
@[simp] theorem State.drawTurns_reply : (s.drawTurns).reply = s.reply := rfl
@[simp] theorem State.drawTurns_draws : (s.drawTurns).draws = s.draws + 1 := rfl
@[simp] theorem State.drawTurns_nTmp : (s.drawTurns).nTmp = s.nTmp := rfl

/-! ### `State.drawOne` -/

@[simp] theorem State.drawOne_rf : (s.drawOne).rf = s.rf := rfl
@[simp] theorem State.drawOne_q : (s.drawOne).q = s.q := rfl
@[simp] theorem State.drawOne_st : (s.drawOne).st = s.st := rfl
@[simp] theorem State.drawOne_pendAddr : (s.drawOne).pendAddr = s.pendAddr := rfl
@[simp] theorem State.drawOne_fcode : (s.drawOne).fcode = s.fcode := rfl
@[simp] theorem State.drawOne_finfo : (s.drawOne).finfo = s.finfo := rfl
@[simp] theorem State.drawOne_qDepth : (s.drawOne).qDepth = s.qDepth := rfl
@[simp] theorem State.drawOne_turns : (s.drawOne).turns = s.turns := rfl
@[simp] theorem State.drawOne_reply : (s.drawOne).reply = s.reply := rfl
@[simp] theorem State.drawOne_draws : (s.drawOne).draws = s.draws + 1 := rfl
@[simp] theorem State.drawOne_nTmp : (s.drawOne).nTmp = s.nTmp := rfl

/-! ### `State.discard` -/

@[simp] theorem State.discard_rf : (s.discard).rf = s.rf := rfl
@[simp] theorem State.discard_q : (s.discard).q = [] := rfl
@[simp] theorem State.discard_st : (s.discard).st = if s.st = .running then .idle else s.st := rfl
@[simp] theorem State.discard_pendAddr : (s.discard).pendAddr = s.pendAddr := rfl
@[simp] theorem State.discard_fcode : (s.discard).fcode = s.fcode := rfl
@[simp] theorem State.discard_finfo : (s.discard).finfo = s.finfo := rfl
@[simp] theorem State.discard_qDepth : (s.discard).qDepth = s.qDepth := rfl
@[simp] theorem State.discard_turns : (s.discard).turns = s.turns := rfl
@[simp] theorem State.discard_reply : (s.discard).reply = s.reply := rfl
@[simp] theorem State.discard_draws : (s.discard).draws = s.draws := rfl
@[simp] theorem State.discard_nTmp : (s.discard).nTmp = s.nTmp := rfl

/-! ### `State.resetBlock` -/

@[simp] theorem State.resetBlock_rf : (s.resetBlock).rf = s.rf.drawn s.draws := rfl
@[simp] theorem State.resetBlock_q : (s.resetBlock).q = [] := rfl
@[simp] theorem State.resetBlock_st : (s.resetBlock).st = .idle := rfl
@[simp] theorem State.resetBlock_pendAddr :
    (s.resetBlock).pendAddr = Config.freeWord (s.draws + 21) := rfl
@[simp] theorem State.resetBlock_fcode : (s.resetBlock).fcode = .none := rfl
@[simp] theorem State.resetBlock_finfo : (s.resetBlock).finfo = 0 := rfl
@[simp] theorem State.resetBlock_qDepth : (s.resetBlock).qDepth = s.qDepth := rfl
@[simp] theorem State.resetBlock_turns : (s.resetBlock).turns = s.turns := rfl
@[simp] theorem State.resetBlock_reply : (s.resetBlock).reply = s.reply := rfl
@[simp] theorem State.resetBlock_draws : (s.resetBlock).draws = s.draws + 22 + s.nTmp := rfl

/-! ### Idle or Running by the queue -/

@[simp] theorem idleOrRunning_nil : idleOrRunning [] = .idle := rfl
@[simp] theorem idleOrRunning_cons (w : UopWord) (l : List UopWord) :
    idleOrRunning (w :: l) = .running := rfl

theorem idleOrRunning_eq (l : List UopWord) :
    idleOrRunning l = if l = [] then .idle else .running := by
  cases l <;> rfl

/-! ### The number of temporaries -/

@[simp] theorem RegFile.write_tmp_length (rf : RegFile) (c : Cell) (v : Word) :
    (rf.write c v).tmp.length = rf.tmp.length := by
  cases c <;> simp [RegFile.write]

@[simp] theorem State.write_nTmp (c : Cell) (v : Word) : (s.write c v).nTmp = s.nTmp :=
  RegFile.write_tmp_length s.rf c v

@[simp] theorem RegFile.drawn_tmp_length (rf : RegFile) (k : Nat) :
    (rf.drawn k).tmp.length = rf.tmp.length := by
  simp [RegFile.drawn]

@[simp] theorem State.resetBlock_nTmp : s.resetBlock.nTmp = s.nTmp :=
  RegFile.drawn_tmp_length s.rf s.draws

end Sys2Proof.Machine
end

