-- ==== Sys2Proof/Laws/Ops.lean ====
section
/-! SUPPORT. One lemma per shared operation: everything it can do. -/

namespace Sys2Proof.Machine

/-! ### Reading and writing cells -/

/-- A write is read back; CCR keeps its low byte (40_register_file.md R70, R72). -/
theorem RegFile.read_write_self (rf : RegFile) (c : Cell) (v : Word)
    (h : c.present rf.tmp.length = true) :
    (rf.write c v).read c = if c = .ccr then ccrRead (ccrWrite v) else v := by
  cases c <;> simp_all [RegFile.read, RegFile.write, Cell.present]

/-- A write leaves every other cell alone (10_state.md R17). -/
theorem RegFile.read_write_ne (rf : RegFile) (c x : Cell) (v : Word) (h : x ≠ c) :
    (rf.write c v).read x = rf.read x := by
  cases c <;> cases x <;>
    simp_all [RegFile.read, RegFile.write, Fin.ext_iff, Ne, eq_comm]

/-- A reference resolves to a cell of the instance, or to the literal (30_encoding.md R55). -/
theorem decodeRef_present {n : Nat} {lit : Word} {c : RefCode} {x : Cell}
    (h : decodeRef n lit c = some (.cell x)) : x.present n = true := by
  cases c <;> simp_all [decodeRef]
  all_goals first
    | (subst h; rfl)
    | (obtain ⟨hk, rfl⟩ := h; simpa [Cell.present] using hk)

theorem decodeRef_imm {n : Nat} {lit v : Word} {c : RefCode}
    (h : decodeRef n lit c = some (.imm v)) : c = .imm ∧ v = lit := by
  cases c <;> simp_all [decodeRef]

/-! ### Operands of a micro-operation -/

@[simp] theorem operand_ok {s : State} {u : Uop} {c : RefCode} {o : Operand} :
    s.operand u c = .ok o ↔ decodeRef s.nTmp u.lit c = some o := by
  unfold State.operand
  cases decodeRef s.nTmp u.lit c <;> simp

theorem operand_error {s : State} {u : Uop} {c : RefCode} {f : FaultCode}
    (h : s.operand u c = .error f) : f = .badRef ∧ decodeRef s.nTmp u.lit c = none := by
  unfold State.operand at h
  cases h' : decodeRef s.nTmp u.lit c <;> simp_all

/-- A micro-operation ends in the state it computes, or in fault entry with its word. -/
theorem complete_cases {op : OpCode} {u : Uop} {s : State} {r : Except FaultCode State}
    {o : Host.Outcome State Fault Refusal} (h : complete op u s r = o) :
    (∃ t, r = .ok t ∧ o = .next t) ∨
      (∃ f, r = .error f ∧ o = .next (s.faultEntry f (encodeUop op u))) := by
  subst h
  cases r with
  | ok t => exact .inl ⟨t, rfl, rfl⟩
  | error f => exact .inr ⟨f, rfl, rfl⟩

/-! ### `lower`, given the translated sequence -/

/-- `append` refuses in Faulted, refuses what does not fit, or appends the whole (42 R98). -/
theorem State.append_cases (s : State) (l : List UopWord) :
    (s.st = .faulted ∧ s.append l = s.answer .faulted) ∨
      (s.st ≠ .faulted ∧ s.qDepth < s.q.length + l.length ∧ s.append l = s.answer .queueFull) ∨
        (s.st ≠ .faulted ∧ s.q.length + l.length ≤ s.qDepth ∧
          s.append l = (s.enqueue l).answer .ok) := by
  unfold State.append
  by_cases h : s.st = .faulted
  · exact .inl ⟨h, if_pos h⟩
  · by_cases h' : s.qDepth < s.q.length + l.length
    · exact .inr (.inl ⟨h, h', by rw [if_neg h, if_pos h']⟩)
    · exact .inr (.inr ⟨h, Nat.le_of_not_lt h', by rw [if_neg h, if_neg h']⟩)

theorem State.append_ok {s : State} {l : List UopWord} (h : s.st ≠ .faulted)
    (hl : s.q.length + l.length ≤ s.qDepth) : s.append l = (s.enqueue l).answer .ok := by
  unfold State.append
  rw [if_neg h, if_neg (Nat.not_lt.mpr hl)]

/-! ### Host commands -/

theorem State.resume_suspended {s : State} (v : Word) (h : s.st = .suspended) :
    s.resume v = ((s.write .ioBuffer v).proceed).answer .ok := if_pos h

theorem State.resume_other {s : State} (v : Word) (h : s.st ≠ .suspended) :
    s.resume v = s.answer .notSuspended := if_neg h

theorem State.failFetch_suspended {s : State} (h : s.st = .suspended) :
    s.failFetch = (s.faultEntry .fetchFail (s.pendAddr.setWidth 64)).answer .ok := if_pos h

theorem State.failFetch_other {s : State} (h : s.st ≠ .suspended) :
    s.failFetch = s.answer .notSuspended := if_neg h

theorem State.flush_suspended {s : State} (h : s.st = .suspended) : s.flush = s.answer .busy :=
  if_pos h

theorem State.flush_other {s : State} (h : s.st ≠ .suspended) : s.flush = s.discard.answer .ok :=
  if_neg h

theorem State.ackFault_faulted {s : State} (h : s.st = .faulted) :
    s.ackFault = s.leaveFault.answer .ok := if_pos h

theorem State.ackFault_other {s : State} (h : s.st ≠ .faulted) :
    s.ackFault = s.answer .notFaulted := if_neg h

/-- `host_read` answers the cell's value, or BADREF (40_register_file.md R76). -/
theorem State.hostRead_cases (s : State) (c : BitVec 6) :
    (∃ x, storageCell? s.nTmp (RefCode.ofBits c) = some x ∧
        s.hostRead c = s.answer .ok (some (s.rf.read x))) ∨
      (storageCell? s.nTmp (RefCode.ofBits c) = none ∧ s.hostRead c = s.answer .badRef) := by
  unfold State.hostRead
  cases h : storageCell? s.nTmp (RefCode.ofBits c) <;> simp

/-- `host_write` writes the cell, or answers BADREF, or BUSY (40_register_file.md R76). -/
theorem State.hostWrite_cases (s : State) (c : BitVec 6) (v : Word) :
    (∃ x, storageCell? s.nTmp (RefCode.ofBits c) = some x ∧ s.st ≠ .running ∧
        s.hostWrite c v = (s.write x v).answer .ok) ∨
      (∃ x, storageCell? s.nTmp (RefCode.ofBits c) = some x ∧ s.st = .running ∧
        s.hostWrite c v = s.answer .busy) ∨
        (storageCell? s.nTmp (RefCode.ofBits c) = none ∧ s.hostWrite c v = s.answer .badRef) := by
  unfold State.hostWrite
  cases h : storageCell? s.nTmp (RefCode.ofBits c) with
  | none => simp
  | some x => by_cases hr : s.st = .running <;> simp [hr]

/-- `status_read` answers one word; only the model's draw counter can change (10_state.md R30). -/
theorem State.statusRead_cases (s : State) (sel : BitVec 2) :
    ∃ v, s.statusRead sel = s.answer .ok (some v) ∨
      (s.st ≠ .suspended ∧ s.statusRead sel = s.drawOne.answer .ok (some v)) := by
  unfold State.statusRead
  by_cases h0 : sel = 0#2
  · exact ⟨_, .inl (if_pos h0)⟩
  · by_cases h1 : sel = 1#2
    · by_cases hs : s.st = .suspended
      · exact ⟨_, .inl (by rw [if_neg h0, if_pos h1, if_pos hs])⟩
      · exact ⟨_, .inr ⟨hs, by rw [if_neg h0, if_pos h1, if_neg hs]⟩⟩
    · by_cases h2 : sel = 2#2
      · exact ⟨_, .inl (by rw [if_neg h0, if_neg h1, if_pos h2])⟩
      · exact ⟨_, .inl (by rw [if_neg h0, if_neg h1, if_neg h2])⟩

end Sys2Proof.Machine
end

