-- ==== Sys2Proof/Laws/PerInstr.lean ====
section
/-! SUPPORT. Lemmas per instruction: each instruction's word lies in its row of spec/opcode_table.json. -/

namespace Sys2Proof.Laws.OpcodeRow

/-- A word matches a row of the opcode table: the row's `match` under its `mask`. -/
def uopRow (w : UopWord) (m : UopWord) : Prop := w &&& 0xE000000000000000#64 = m

def descRow (e : DescWord) (m : DescWord) : Prop := e &&& 0x0000000000000000001F#80 = m

/-- The row each constructor stands for, with the table's own `match` value. -/
def Statement : Instr → Prop
  | i@(.zero _) => ∃ w, encode i = .uop w ∧ uopRow w 0x0000000000000000#64
  | i@(.set _) => ∃ w, encode i = .uop w ∧ uopRow w 0x2000000000000000#64
  | i@(.mov _) => ∃ w, encode i = .uop w ∧ uopRow w 0x4000000000000000#64
  | i@(.add _) => ∃ w, encode i = .uop w ∧ uopRow w 0x6000000000000000#64
  | i@(.scale _) => ∃ w, encode i = .uop w ∧ uopRow w 0x8000000000000000#64
  | i@(.reqmem _) => ∃ w, encode i = .uop w ∧ uopRow w 0xA000000000000000#64
  | i@(.dreg _) => ∃ e, encode i = .desc e ∧ descRow e 0x00000000000000000000#80
  | i@(.areg _) => ∃ e, encode i = .desc e ∧ descRow e 0x00000000000000000001#80
  | i@(.aind _) => ∃ e, encode i = .desc e ∧ descRow e 0x00000000000000000002#80
  | i@(.apost _ _) => ∃ e, encode i = .desc e ∧ descRow e 0x00000000000000000003#80
  | i@(.apre _ _) => ∃ e, encode i = .desc e ∧ descRow e 0x00000000000000000004#80
  | i@(.adisp _ _) => ∃ e, encode i = .desc e ∧ descRow e 0x00000000000000000005#80
  | i@(.aidx _ _ _ _) => ∃ e, encode i = .desc e ∧ descRow e 0x00000000000000000006#80
  | i@(.amipost _ _ _ _ _) => ∃ e, encode i = .desc e ∧ descRow e 0x00000000000000000007#80
  | i@(.amipre _ _ _ _ _) => ∃ e, encode i = .desc e ∧ descRow e 0x00000000000000000008#80
  | i@(.pcdisp _) => ∃ e, encode i = .desc e ∧ descRow e 0x00000000000000000009#80
  | i@(.pcidx _ _ _) => ∃ e, encode i = .desc e ∧ descRow e 0x0000000000000000000A#80
  | i@(.pcmipost _ _ _ _) => ∃ e, encode i = .desc e ∧ descRow e 0x0000000000000000000B#80
  | i@(.pcmipre _ _ _ _) => ∃ e, encode i = .desc e ∧ descRow e 0x0000000000000000000C#80
  | i@(.absw _) => ∃ e, encode i = .desc e ∧ descRow e 0x0000000000000000000D#80
  | i@(.absl _) => ∃ e, encode i = .desc e ∧ descRow e 0x0000000000000000000E#80
  | i@(.imm _) => ∃ e, encode i = .desc e ∧ descRow e 0x0000000000000000000F#80

/-- A micro-instruction row's mask keeps OP alone. -/
theorem and_opMask (w : UopWord) :
    w &&& 0xE000000000000000#64 = place 64 61 (w.extractLsb' 61 3) := by
  apply BitVec.eq_of_getLsbD_eq
  intro i hi
  rw [place_getLsbD, BitVec.getLsbD_extractLsb', BitVec.getLsbD_and]
  interval_cases i <;> simp

/-- A descriptor row's mask keeps KIND alone. -/
theorem and_kindMask (e : DescWord) :
    e &&& 0x0000000000000000001F#80 = (e.extractLsb' 0 5).setWidth 80 := by
  apply BitVec.eq_of_getLsbD_eq
  intro i hi
  rw [BitVec.getLsbD_setWidth, BitVec.getLsbD_extractLsb', BitVec.getLsbD_and]
  interval_cases i <;> simp

theorem uopRow_encode (op : OpCode) (u : Uop) (m : UopWord) (h : place 64 61 op.bits = m) :
    uopRow (encodeUop op u) m := by
  rw [uopRow, and_opMask, encodeUop_op, h]

theorem descRow_pack (kind : BitVec 5) (reg : BitVec 3) (sz : BitVec 2) (xa : BitVec 1)
    (xn : BitVec 3) (sc : BitVec 2) (d1 d2 : Word) (m : DescWord) (h : kind.setWidth 80 = m) :
    descRow (packDesc kind reg sz xa xn sc d1 d2) m := by
  rw [descRow, and_kindMask, packDesc_kind, h]

theorem zero (u : Uop) : Statement (.zero u) :=
  ⟨_, rfl, uopRow_encode _ _ _ (by decide)⟩
theorem set (u : Uop) : Statement (.set u) :=
  ⟨_, rfl, uopRow_encode _ _ _ (by decide)⟩
theorem mov (u : Uop) : Statement (.mov u) :=
  ⟨_, rfl, uopRow_encode _ _ _ (by decide)⟩
theorem add (u : Uop) : Statement (.add u) :=
  ⟨_, rfl, uopRow_encode _ _ _ (by decide)⟩
theorem scale (u : Uop) : Statement (.scale u) :=
  ⟨_, rfl, uopRow_encode _ _ _ (by decide)⟩
theorem reqmem (u : Uop) : Statement (.reqmem u) :=
  ⟨_, rfl, uopRow_encode _ _ _ (by decide)⟩
theorem dreg (n : RegNum) :
    Statement (.dreg n) :=
  ⟨_, rfl, descRow_pack _ _ _ _ _ _ _ _ _ (by decide)⟩
theorem areg (n : RegNum) :
    Statement (.areg n) :=
  ⟨_, rfl, descRow_pack _ _ _ _ _ _ _ _ _ (by decide)⟩
theorem aind (n : RegNum) :
    Statement (.aind n) :=
  ⟨_, rfl, descRow_pack _ _ _ _ _ _ _ _ _ (by decide)⟩
theorem apost (n : RegNum) (sz : OperandSize) :
    Statement (.apost n sz) :=
  ⟨_, rfl, descRow_pack _ _ _ _ _ _ _ _ _ (by decide)⟩
theorem apre (n : RegNum) (sz : OperandSize) :
    Statement (.apre n sz) :=
  ⟨_, rfl, descRow_pack _ _ _ _ _ _ _ _ _ (by decide)⟩
theorem adisp (n : RegNum) (d1 : Word) :
    Statement (.adisp n d1) :=
  ⟨_, rfl, descRow_pack _ _ _ _ _ _ _ _ _ (by decide)⟩
theorem aidx (n : RegNum) (d1 : Word) (x : IndexReg) (sc : OperandSize) :
    Statement (.aidx n d1 x sc) :=
  ⟨_, rfl, descRow_pack _ _ _ _ _ _ _ _ _ (by decide)⟩
theorem amipost (n : RegNum) (d1 : Word) (x : IndexReg) (sc : OperandSize) (d2 : Word) :
    Statement (.amipost n d1 x sc d2) :=
  ⟨_, rfl, descRow_pack _ _ _ _ _ _ _ _ _ (by decide)⟩
theorem amipre (n : RegNum) (d1 : Word) (x : IndexReg) (sc : OperandSize) (d2 : Word) :
    Statement (.amipre n d1 x sc d2) :=
  ⟨_, rfl, descRow_pack _ _ _ _ _ _ _ _ _ (by decide)⟩
theorem pcdisp (d1 : Word) :
    Statement (.pcdisp d1) :=
  ⟨_, rfl, descRow_pack _ _ _ _ _ _ _ _ _ (by decide)⟩
theorem pcidx (d1 : Word) (x : IndexReg) (sc : OperandSize) :
    Statement (.pcidx d1 x sc) :=
  ⟨_, rfl, descRow_pack _ _ _ _ _ _ _ _ _ (by decide)⟩
theorem pcmipost (d1 : Word) (x : IndexReg) (sc : OperandSize) (d2 : Word) :
    Statement (.pcmipost d1 x sc d2) :=
  ⟨_, rfl, descRow_pack _ _ _ _ _ _ _ _ _ (by decide)⟩
theorem pcmipre (d1 : Word) (x : IndexReg) (sc : OperandSize) (d2 : Word) :
    Statement (.pcmipre d1 x sc d2) :=
  ⟨_, rfl, descRow_pack _ _ _ _ _ _ _ _ _ (by decide)⟩
theorem absw (d1 : Word) :
    Statement (.absw d1) :=
  ⟨_, rfl, descRow_pack _ _ _ _ _ _ _ _ _ (by decide)⟩
theorem absl (d1 : Word) :
    Statement (.absl d1) :=
  ⟨_, rfl, descRow_pack _ _ _ _ _ _ _ _ _ (by decide)⟩
theorem imm (d1 : Word) :
    Statement (.imm d1) :=
  ⟨_, rfl, descRow_pack _ _ _ _ _ _ _ _ _ (by decide)⟩

end Sys2Proof.Laws.OpcodeRow
end

