-- ==== Sys2Proof/Laws/Step.lean ====
section
/-! SUPPORT. What one transition can do, said once. -/

namespace Sys2Proof.Machine

/-! ### One spec lemma per micro-operation -/

variable {s : State} {u : Uop}

theorem execZero_next {c : Cell} (h : decodeRef s.nTmp u.lit u.ra = some (.cell c)) :
    execZero u s = .next (s.write c 0).proceed := by
  simp [execZero, State.operand, h, Operand.writable, complete, bind, Except.bind, pure, Except.pure]

theorem execSet_next {c : Cell} (h : decodeRef s.nTmp u.lit u.ra = some (.cell c)) :
    execSet u s = .next (s.write c u.lit).proceed := by
  simp [execSet, State.operand, h, Operand.writable, complete, bind, Except.bind, pure, Except.pure]

theorem execMov_next {c : Cell} {x : Operand} (h : decodeRef s.nTmp u.lit u.ra = some (.cell c))
    (hx : decodeRef s.nTmp u.lit u.rb = some x) :
    execMov u s = .next (s.write c (s.read x)).proceed := by
  simp [execMov, State.operand, h, hx, Operand.writable, complete, bind, Except.bind, pure,
    Except.pure]

theorem execAdd_next {c : Cell} {x : Operand} (h : decodeRef s.nTmp u.lit u.ra = some (.cell c))
    (hx : decodeRef s.nTmp u.lit u.rb = some x) :
    execAdd u s = .next (s.write c (s.rf.read c + s.read x)).proceed := by
  simp [execAdd, State.operand, h, hx, Operand.writable, complete, bind, Except.bind, pure,
    Except.pure, State.read]

theorem execScale_next {c : Cell} {sz : OperandSize} (hs : OperandSize.ofCode? u.sz = some sz)
    (h : decodeRef s.nTmp u.lit u.ra = some (.cell c)) :
    execScale u s = .next (s.write c (s.rf.read c <<< shiftOf sz)).proceed := by
  simp [execScale, scaleSize, State.operand, h, hs, Operand.writable, complete, bind, Except.bind,
    pure, Except.pure, State.read]

theorem execReqmem_next {a : Operand} (h : decodeRef s.nTmp u.lit u.ra = some a) :
    execReqmem u s = .next (s.suspend (s.read a)) := by
  simp [execReqmem, State.operand, h, complete, bind, Except.bind, pure, Except.pure]

/-! ### What running an instruction can do -/

/-- A fault the executor itself raises (60_exceptions.md R123). -/
def FaultCode.isExecutors : FaultCode → Bool
  | .immWrite | .badRef | .badUop => true
  | .none | .fetchFail => false

/-- A micro-operation ends in fault entry with its word, or writes the one cell RA names and goes on,
or (REQMEM) suspends at the address RA reads as. -/
theorem exec_uop_cases (op : OpCode) (u : Uop) (s : State) :
    (∃ f, f.isExecutors = true ∧
        exec (op.instr u) s = .next (s.faultEntry f (encodeUop op u))) ∨
      (op ≠ .reqmem ∧ ∃ c v, decodeRef s.nTmp u.lit u.ra = some (.cell c) ∧
        exec (op.instr u) s = .next (s.write c v).proceed) ∨
        (op = .reqmem ∧ ∃ a, decodeRef s.nTmp u.lit u.ra = some a ∧
          exec (op.instr u) s = .next (s.suspend (s.read a))) := by
  cases hra : decodeRef s.nTmp u.lit u.ra with
  | none =>
    refine .inl ?_
    cases op <;>
      simp [OpCode.instr, exec, execZero, execSet, execMov, execAdd, execScale, execReqmem,
        State.operand, hra, complete, bind, Except.bind, scaleSize]
    case scale => cases OperandSize.ofCode? u.sz <;> exact ⟨_, rfl, rfl⟩
    all_goals exact ⟨.badRef, rfl, rfl⟩
  | some o =>
    cases o with
    | imm v =>
      cases op with
      | reqmem => exact .inr (.inr ⟨rfl, _, rfl, execReqmem_next hra⟩)
      | zero =>
        exact .inl ⟨.immWrite, rfl, by
          simp [OpCode.instr, exec, execZero, State.operand, hra, complete, bind, Except.bind,
            Operand.writable]⟩
      | set =>
        exact .inl ⟨.immWrite, rfl, by
          simp [OpCode.instr, exec, execSet, State.operand, hra, complete, bind, Except.bind,
            Operand.writable]⟩
      | mov =>
        refine .inl ?_
        cases hrb : decodeRef s.nTmp u.lit u.rb
        · exact ⟨.badRef, rfl, by
            simp [OpCode.instr, exec, execMov, State.operand, hra, hrb, complete, bind, Except.bind]⟩
        · exact ⟨.immWrite, rfl, by
            simp [OpCode.instr, exec, execMov, State.operand, hra, hrb, complete, bind, Except.bind,
              Operand.writable]⟩
      | add =>
        refine .inl ?_
        cases hrb : decodeRef s.nTmp u.lit u.rb
        · exact ⟨.badRef, rfl, by
            simp [OpCode.instr, exec, execAdd, State.operand, hra, hrb, complete, bind, Except.bind]⟩
        · exact ⟨.immWrite, rfl, by
            simp [OpCode.instr, exec, execAdd, State.operand, hra, hrb, complete, bind, Except.bind,
              Operand.writable]⟩
      | scale =>
        refine .inl ?_
        cases hs : OperandSize.ofCode? u.sz
        · exact ⟨.badUop, rfl, by
            simp [OpCode.instr, exec, execScale, scaleSize, hs, complete, bind, Except.bind]⟩
        · exact ⟨.immWrite, rfl, by
            simp [OpCode.instr, exec, execScale, scaleSize, hs, State.operand, hra, complete, bind,
              Except.bind, Operand.writable]⟩
    | cell c =>
      cases op with
      | reqmem => exact .inr (.inr ⟨rfl, _, rfl, execReqmem_next hra⟩)
      | zero => exact .inr (.inl ⟨by simp, c, _, rfl, execZero_next hra⟩)
      | set => exact .inr (.inl ⟨by simp, c, _, rfl, execSet_next hra⟩)
      | mov =>
        cases hrb : decodeRef s.nTmp u.lit u.rb
        · exact .inl ⟨.badRef, rfl, by
            simp [OpCode.instr, exec, execMov, State.operand, hra, hrb, complete, bind, Except.bind]⟩
        · exact .inr (.inl ⟨by simp, c, _, rfl, execMov_next hra hrb⟩)
      | add =>
        cases hrb : decodeRef s.nTmp u.lit u.rb
        · exact .inl ⟨.badRef, rfl, by
            simp [OpCode.instr, exec, execAdd, State.operand, hra, hrb, complete, bind, Except.bind]⟩
        · exact .inr (.inl ⟨by simp, c, _, rfl, execAdd_next hra hrb⟩)
      | scale =>
        cases hs : OperandSize.ofCode? u.sz
        · exact .inl ⟨.badUop, rfl, by
            simp [OpCode.instr, exec, execScale, scaleSize, hs, complete, bind, Except.bind]⟩
        · exact .inr (.inl ⟨by simp, c, _, rfl, execScale_next hs hra⟩)

/-- A descriptor appends its lowering or is refused (42_addressing_modes.md R98). -/
theorem exec_desc {i : Instr} (h : i.isDesc = true) (s : State) :
    exec i s = .next (s.append (loweringOf i)) := by
  cases i <;> first | rfl | cases h

/-! ### What a step can do -/

theorem step_executor {s : State} (h : s.executorNext) :
    step s = perform (executorTurn s.taken) := by
  obtain ⟨ts, h⟩ := h
  simp [step, fetch, h, State.taken]

/-- With no turn chosen, a step draws the next ones and does nothing else. -/
theorem step_draws {s : State} (h : s.turns = []) : step s = .next s.drawTurns := by
  simp [step, fetch, h, perform]

theorem step_host {s : State} {c : Command} {ts : List Turn} (h : s.turns = .host c :: ts) :
    step s = perform (hostTurn c s.taken) := by
  simp [step, fetch, h, State.taken]

/-- Outside Running the executor's turn changes nothing. -/
theorem step_executor_waits {s : State} (h : s.executorNext) (hs : s.st ≠ .running) :
    step s = .next s.taken := by
  rw [step_executor h]
  have : s.taken.st = s.st := rfl
  cases hst : s.st <;> simp_all [executorTurn, perform]

/-- In Running it pops the head of the queue and runs it, or faults BAD_UOP. -/
theorem step_executor_runs {s : State} {w : UopWord} {rest : List UopWord} (h : s.executorNext)
    (hs : s.st = .running) (hq : s.q = w :: rest) :
    step s = match decodeUop w with
      | .ok i => exec i (s.taken.popped rest)
      | .error _ => .next ((s.taken.popped rest).faultEntry .badUop w) := by
  rw [step_executor h]
  have h1 : s.taken.st = .running := hs
  have h2 : s.taken.q = w :: rest := hq
  simp only [executorTurn, h1, h2]
  cases decodeUop w <;> rfl

/-- `lower` of a valid descriptor appends its lowering or is refused. -/
theorem step_lower_ok {s : State} {e : DescWord} {i : Instr} {ts : List Turn}
    (h : s.turns = .host (.lower e) :: ts) (hd : decodeDesc e = .ok i) :
    step s = .next (s.taken.append (loweringOf i)) := by
  rw [step_host h]
  simp only [hostTurn, hd]
  exact exec_desc (decodeDesc_isDesc hd) _

/-- `lower` of a reserved descriptor is refused. -/
theorem step_lower_error {s : State} {e : DescWord} {r : Reject} {ts : List Turn}
    (h : s.turns = .host (.lower e) :: ts) (hd : decodeDesc e = .error r) :
    step s = .next (s.taken.answer (if s.st = .faulted then .faulted else .descReserved)) := by
  rw [step_host h]
  simp only [hostTurn, hd]
  rfl

/-- Everything a step can be, by whose turn it is. -/
theorem step_turns (s : State) :
    s.turns = [] ∨ s.executorNext ∨ ∃ c ts, s.turns = .host c :: ts := by
  cases h : s.turns with
  | nil => exact .inl rfl
  | cons t ts =>
    cases t with
    | executor => exact .inr (.inl ⟨ts, h⟩)
    | host c => exact .inr (.inr ⟨c, ts, rfl⟩)

/-! ### The invariant does not look at the turns -/

theorem Inv.withTurns {s : State} (h : Inv s) (ts : List Turn) : Inv (s.withTurns ts) :=
  ⟨⟨h.params.1, h.params.2, h.params.3, h.params.4⟩,
    ⟨h.control.1, h.control.2, h.control.3, h.control.4, h.control.5, h.control.6⟩, h.queue⟩

theorem Inv.drawTurns {s : State} (h : Inv s) : Inv s.drawTurns :=
  ⟨⟨h.params.1, h.params.2, h.params.3, h.params.4⟩,
    ⟨h.control.1, h.control.2, h.control.3, h.control.4, h.control.5, h.control.6⟩, h.queue⟩

end Sys2Proof.Machine
end

