-- ==== Sys2Proof/Tests/Slice0.lean ====
section
/-! SUPPORT. The model's own tests. Words and results are those of spec/95_test_vectors.md (the vector
is named), or are worked out by hand from the rule named. -/

namespace Sys2Proof.Tests

open Sys2Proof Sys2Proof.Machine

/-! ## WellFormed: a code called reserved that is not one is refused, in RA and in RB -/

theorem test_wf_refuses_unreserved_ra :
    (Instr.zero ⟨.reserved 0x12, .d 0, 0, 0, 0⟩).wf = false := by decide

theorem test_wf_refuses_unreserved_rb :
    (Instr.mov ⟨.in0, .reserved 0x30, 0, 0, 0⟩).wf = false := by decide

theorem test_wf_accepts_reserved :
    (Instr.mov ⟨.in0, .reserved 0x15, 0, 0, 0⟩).wf = true := by decide

/-! ## Decoding: one word for each constructor -/

/-- U1. -/
theorem test_decode_zero :
    (decodeUop 0x0980000000000000).toOption = some (.zero ⟨.in1, .d 0, 0, 0, 0⟩) := by decide

/-- U4; bit by bit: OP 001, RA 100000, LIT 0xDEADBEEF. -/
theorem test_decode_set :
    (decodeUop 0b0011000000000000000000000000000011011110101011011011111011101111).toOption =
      some (.set ⟨.tmp 0, .d 0, 0, 0, 0xDEADBEEF⟩) := by decide

/-- U13: RSV is part of the word. -/
theorem test_decode_mov :
    (decodeUop 0x49287FFF00000000).toOption = some (.mov ⟨.in0, .ioBuffer, 0, 0x7FFF, 0⟩) := by
  decide

/-- U16; bit by bit: OP 011, RA 001101 (A5), RB 110000 (Imm), LIT -4. -/
theorem test_decode_add :
    (decodeUop 0b0110011011100000000000000000000011111111111111111111111111111100).toOption =
      some (.add ⟨.a 5, .imm, 0, 0, 0xFFFFFFFC⟩) := by decide

/-- U22. -/
theorem test_decode_scale :
    (decodeUop 0x8981000000000000).toOption = some (.scale ⟨.in1, .d 0, 0b10, 0, 0⟩) := by decide

/-- U26. -/
theorem test_decode_reqmem :
    (decodeUop 0xB800000000FF8000).toOption = some (.reqmem ⟨.imm, .d 0, 0, 0, 0x00FF8000⟩) := by
  decide

/-- U28, U29: OP 110 and 111. -/
theorem test_decode_reserved_op :
    decodeUop 0xC900000000000000 matches .error .reservedOp ∧
      decodeUop 0xEA80000000000000 matches .error .reservedOp := by decide

/-- L2.5; bit by bit: REG 011, KIND 00000. -/
theorem test_decode_dreg : (decodeDesc 0b01100000).toOption = some (.dreg 3) := by decide
theorem test_decode_areg : (decodeDesc 0xC1).toOption = some (.areg 6) := by decide
theorem test_decode_aind : (decodeDesc 0x82).toOption = some (.aind 4) := by decide
theorem test_decode_apost : (decodeDesc 0x143).toOption = some (.apost 2 .word) := by decide
/-- Bit by bit: SZ 10, REG 101, KIND 00100. -/
theorem test_decode_apre : (decodeDesc 0b1010100100).toOption = some (.apre 5 .long) := by decide
theorem test_decode_adisp :
    (decodeDesc 0x00000000FFFF80000025).toOption = some (.adisp 1 0xFFFF8000) := by decide
/-- Bit by bit: D1 0x10, SC 10, XN 001, XA 0, SZ 00, REG 000, KIND 00110. -/
theorem test_decode_aidx :
    (decodeDesc 0b100001000100000000110).toOption = some (.aidx 0 0x10 (.d 1) .long) := by decide
theorem test_decode_amipost :
    (decodeDesc 0x00000004000000108807).toOption = some (.amipost 0 0x10 (.d 1) .long 4) := by decide
theorem test_decode_amipre :
    (decodeDesc 0x00000004000000108808).toOption = some (.amipre 0 0x10 (.d 1) .long 4) := by decide
theorem test_decode_pcdisp :
    (decodeDesc 0x00000000FFFFFFFE0009).toOption = some (.pcdisp 0xFFFFFFFE) := by decide
theorem test_decode_pcidx :
    (decodeDesc 0x00000000FFFF80005C0A).toOption = some (.pcidx 0xFFFF8000 (.a 3) .word) := by decide
theorem test_decode_pcmipost :
    (decodeDesc 0x0000000000000020400B).toOption = some (.pcmipost 0x20 (.d 0) .word 0) := by decide
theorem test_decode_pcmipre :
    (decodeDesc 0x0000000000000020400C).toOption = some (.pcmipre 0x20 (.d 0) .word 0) := by decide
theorem test_decode_absw :
    (decodeDesc 0x00000000FFFF8000000D).toOption = some (.absw 0xFFFF8000) := by decide
theorem test_decode_absl :
    (decodeDesc 0x0000000000FF8000000E).toOption = some (.absl 0x00FF8000) := by decide
theorem test_decode_imm : (decodeDesc 0x0000000000001234000F).toOption = some (.imm 0x1234) := by decide

/-- Q1, Q2, Q3, Q4, Q5, Q6. -/
theorem test_decode_reserved_desc :
    decodeDesc 0x10 matches .error .reservedKind ∧ decodeDesc 0x1F matches .error .reservedKind ∧
      decodeDesc 0x343 matches .error .reservedSize ∧ decodeDesc 0x304 matches .error .reservedSize ∧
        decodeDesc 0xC006 matches .error .reservedScale ∧
          decodeDesc 0xC00C matches .error .reservedScale := by decide

/-- Q7, Q8, Q9: unused fields are ignored. -/
theorem test_decode_ignores_unused :
    (decodeDesc 0xC360).toOption = some (.dreg 3) ∧ (decodeDesc 0xC005).toOption = some (.adisp 0 0) ∧
      (decodeDesc 0x309).toOption = some (.pcdisp 0) := by decide

/-- The encoder writes L2.5's words. -/
theorem test_encode_descriptors :
    encode (.amipost 0 0x10 (.d 1) .long 4) = .desc 0x00000004000000108807 ∧
      encode (.pcidx 0xFFFF8000 (.a 3) .word) = .desc 0x00000000FFFF80005C0A ∧
        encode (.apre 5 .long) = .desc 0x2A4 := by decide

/-- A row of the table: 64 bits are a micro-instruction, fewer a descriptor. -/
theorem test_table_words :
    decodeTableWord 64 0x4000000000000000 = some (.mov ⟨.d 0, .d 0, 0, 0, 0⟩) ∧
      decodeTableWord 80 0x0C = some (.pcmipre 0 (.d 0) .byte 0) ∧
        decodeTableWord 8 0x0F = some (.imm 0) := by decide

/-! ## One executor step on one word (95_test_vectors.md L2.2) -/

/-- The state a step leaves, if it leaves one. -/
def after (o : Host.Outcome State Fault Refusal) : Option State :=
  match o with
  | .next t => some t
  | _ => none

/-- One executor step on the word `w`, from Running with `Q = [w]`; N_TMP = 4. -/
def runWord (w : UopWord) (rf : RegFile := RegFile.reset) : Option State :=
  after (step { State.reset with rf := rf, q := [w], st := .running, turns := [.executor] })

/-- What a field reads after `runWord`. -/
def seen {α : Type} (o : Option State) (f : State → α) : Option (ExecState × α) :=
  o.map fun t => (t.st, f t)

theorem test_U1_zero :
    seen (runWord 0x0980000000000000 { RegFile.reset with in1 := 0x1234 }) (·.rf.in1) =
      some (.idle, 0) := by decide

theorem test_U3_zero_imm :
    seen (runWord 0x1800000000000000) (fun t => (t.fcode, t.finfo, t.q)) =
      some (.faulted, .immWrite, 0x1800000000000000, []) := by decide

theorem test_U4_set :
    seen (runWord 0x30000000DEADBEEF) (·.rf.tmp) = some (.idle, [0xDEADBEEF, 0, 0, 0]) := by decide

theorem test_U6_set_absent_tmp :
    seen (runWord 0x3280000000000001) (fun t => (t.fcode, t.finfo, t.rf.tmp)) =
      some (.faulted, .badRef, 0x3280000000000001, [0, 0, 0, 0]) := by decide

theorem test_U9_mov_ccr :
    seen (runWord 0x48A4000000000000 { RegFile.reset with in0 := 0x12345678 }) (·.rf.ccr) =
      some (.idle, 0x78) := by decide

theorem test_U32_mov_two_faults :
    seen (runWord 0x5862000000000000) (·.fcode) = some (.faulted, .badRef) := by decide

theorem test_U18_add_doubles :
    seen (runWord 0x6924000000000000 { RegFile.reset with in0 := 0x80000001 }) (·.rf.in0) =
      some (.idle, 2) := by decide

theorem test_U19_add_ccr :
    seen (runWord 0x68E0000000000001 { RegFile.reset with ccr := 0xFF }) (·.rf.ccr) =
      some (.idle, 0) := by decide

theorem test_U22_scale :
    seen (runWord 0x8981000000000000 { RegFile.reset with in1 := 0x40000000 }) (·.rf.in1) =
      some (.idle, 0) := by decide

theorem test_U33_scale_two_faults :
    seen (runWord 0x9801800000000000) (·.fcode) = some (.faulted, .badUop) := by decide

theorem test_U25_reqmem :
    seen (runWord 0xA500000000000000 { RegFile.reset with a := RegFile.reset.a.set 2 0x2000 })
      (fun t => (t.pendAddr, statusWord t)) = some (.suspended, 0x2000, 2) := by decide

theorem test_U27_reqmem_ccr :
    seen (runWord 0xA880000000000000 { RegFile.reset with ccr := 0x42 }) (·.pendAddr) =
      some (.suspended, 0x42) := by decide

/-- U29. -/
theorem test_U29_reserved_op :
    seen (runWord 0xEA80000000000000) (fun t => (t.fcode, t.finfo)) =
      some (.faulted, .badUop, 0xEA80000000000000) := by decide

/-! ## `lower` (95_test_vectors.md L2.4, L2.5): the words appended -/

/-- One `lower(e)` from Idle with an empty queue. -/
def lowered (e : DescWord) : Option (ExecState × List UopWord) :=
  seen (after (step { State.reset with turns := [.host (.lower e)] })) (·.q)

theorem test_lower_dreg : lowered 0x60 = some (.running, [0x4906000000000000]) := by decide
theorem test_lower_areg : lowered 0xC1 = some (.running, [0x491C000000000000]) := by decide
theorem test_lower_aind :
    lowered 0x82 = some (.running, [0xA600000000000000, 0x4928000000000000]) := by decide
theorem test_lower_apost :
    lowered 0xE3 =
      some (.running, [0xA780000000000000, 0x4928000000000000, 0x67E0000000000001]) := by decide
theorem test_lower_apre :
    lowered 0x2A4 =
      some (.running, [0x66E00000FFFFFFFC, 0xA680000000000000, 0x4928000000000000]) := by decide
theorem test_lower_adisp :
    lowered 0x00000000FFFF80000025 =
      some (.running, [0x4912000000000000, 0x69600000FFFF8000, 0xA900000000000000,
        0x4928000000000000]) := by decide
theorem test_lower_aidx :
    lowered 0x5446 =
      some (.running, [0x4914000000000000, 0x6960000000000000, 0x4994000000000000,
        0x8980800000000000, 0x6926000000000000, 0xA900000000000000, 0x4928000000000000]) := by decide
theorem test_lower_amipost :
    lowered 0x00000004000000108807 =
      some (.running, [0x4910000000000000, 0x6960000000000010, 0xA900000000000000,
        0x4928000000000000, 0x4982000000000000, 0x8981000000000000, 0x6926000000000000,
        0x6960000000000004, 0xA900000000000000, 0x4928000000000000]) := by decide
theorem test_lower_amipre :
    lowered 0x00000004000000108808 =
      some (.running, [0x4910000000000000, 0x6960000000000010, 0x4982000000000000,
        0x8981000000000000, 0x6926000000000000, 0xA900000000000000, 0x4928000000000000,
        0x6960000000000004, 0xA900000000000000, 0x4928000000000000]) := by decide
theorem test_lower_pcdisp :
    lowered 0x00000000FFFFFFFE0009 =
      some (.running, [0x4920000000000000, 0x69600000FFFFFFFE, 0xA900000000000000,
        0x4928000000000000]) := by decide
theorem test_lower_pcidx :
    lowered 0x00000000FFFF80005C0A =
      some (.running, [0x4920000000000000, 0x69600000FFFF8000, 0x4996000000000000,
        0x8980800000000000, 0x6926000000000000, 0xA900000000000000, 0x4928000000000000]) := by decide
theorem test_lower_pcmipost :
    lowered 0x0000000000000020400B =
      some (.running, [0x4920000000000000, 0x6960000000000020, 0xA900000000000000,
        0x4928000000000000, 0x4980000000000000, 0x8980800000000000, 0x6926000000000000,
        0x6960000000000000, 0xA900000000000000, 0x4928000000000000]) := by decide
theorem test_lower_pcmipre :
    lowered 0x0000000000000020400C =
      some (.running, [0x4920000000000000, 0x6960000000000020, 0x4980000000000000,
        0x8980800000000000, 0x6926000000000000, 0xA900000000000000, 0x4928000000000000,
        0x6960000000000000, 0xA900000000000000, 0x4928000000000000]) := by decide
theorem test_lower_absw :
    lowered 0x00000000FFFF8000000D = some (.running, [0xB8000000FFFF8000, 0x4928000000000000]) := by
  decide
theorem test_lower_absl :
    lowered 0x0000000000FF8000000E = some (.running, [0xB800000000FF8000, 0x4928000000000000]) := by
  decide
theorem test_lower_imm :
    lowered 0x0000000000001234000F = some (.running, [0xB800000000001234, 0x4928000000000000]) := by
  decide

/-- Q1. -/
theorem test_Q1_reserved : lowered 0x10 = some (.idle, []) := by decide

/-! ## Host commands (95_test_vectors.md L2.1, L2.3) -/

/-- One host command from a state whose block part is `s`. -/
def commanded (c : Command) (s : State) : Option State :=
  after (step { s with turns := [.host c] })

theorem test_X9_fail :
    seen (commanded .fail { State.reset with
        st := .suspended, pendAddr := 0x1000, rf := { RegFile.reset with ioBuffer := 7 } })
      (fun t => (t.fcode, t.finfo, t.rf.ioBuffer, statusWord t)) =
        some (.faulted, .fetchFail, 0x1000, 7, 0x13) := by decide

theorem test_X10_ack :
    seen (commanded .ackFault { State.reset with
        st := .faulted, fcode := .fetchFail, finfo := 0x1000 }) (fun t => (t.fcode, t.finfo)) =
      some (.idle, .none, 0) := by decide

theorem test_X7_resume :
    seen (commanded (.resume 0x42) { State.reset with st := .suspended }) (·.rf.ioBuffer) =
      some (.idle, 0x42) := by decide

theorem test_X4_flush :
    seen (commanded .flush { State.reset with st := .suspended, q := [1, 2, 3] })
      (fun t => (t.q.length, t.reply.map (·.response))) =
        some (.suspended, 3, some .busy) := by decide

theorem test_X11_lower_faulted :
    seen (commanded (.lower 0x60) { State.reset with st := .faulted, fcode := .badUop })
      (fun t => (t.q, t.reply.map (·.response))) = some (.faulted, [], some .faulted) := by decide

theorem test_RF3_host_write_ccr :
    seen (commanded (.hostWrite 0x11 0x12345678) State.reset) (·.rf.ccr) = some (.idle, 0x78) := by
  decide

theorem test_RF7_host_read_absent :
    seen (commanded (.hostRead 0x24) State.reset) (·.reply) =
      some (.idle, some ⟨.badRef, none⟩) := by decide

theorem test_RF9_host_write_running :
    seen (commanded (.hostWrite 0 5) { State.reset with st := .running, q := [0] })
      (fun t => (t.rf.d[0], t.reply.map (·.response))) = some (.running, 0, some .busy) := by decide

/-- Q10's last status: Running, 14 entries. -/
theorem test_Q10_status :
    statusWord { State.reset with st := .running, q := List.replicate 14 0 } = 0xE01 := by decide

/-- X12, control part. -/
theorem test_X12_reset :
    seen (commanded .reset { State.reset with st := .suspended, q := [1], finfo := 5 })
      (fun t => (t.q, t.fcode, t.finfo)) = some (.idle, [], .none, 0) := by decide

/-! ## A word of the opcode table, presented to the machine after reset -/

/-- `ADD D0, D0` is the first instruction to run. -/
theorem test_withFetchWord_uop :
    seen (after (step (State.reset.withFetchWord 64 0x6000000000000000))) (·.q) =
      some (.idle, []) := by decide

/-- `([bd,PC],Xi*k,od)` is the first instruction to run. -/
theorem test_withFetchWord_desc :
    seen (after (step (State.reset.withFetchWord 80 0x0B))) (·.q.length) =
      some (.running, 10) := by decide

/-! ## Witnesses: for each statement with hypotheses, a state and operands that meet them all -/

/-- Running with the queue `q`, the executor next. -/
def runningOn (q : List UopWord) : State :=
  { State.reset with st := .running, q := q, turns := [.executor] }

/-- Suspended at `0x1000`, with one word left. -/
def waiting : State :=
  { State.reset with st := .suspended, pendAddr := 0x1000, q := [wMovIn0IoBuffer] }

/-- Faulted after a failed fetch at `0x1000`. -/
def failed : State := { State.reset with st := .faulted, fcode := .fetchFail, finfo := 0x1000 }

/-- `s` with the host's command `c` next. -/
def given (c : Command) (s : State) : State := { s with turns := [.host c] }

theorem witness_UopWordsDecodeByTheirFields :
    ((0 : UopWord).extractLsb' 61 3).toNat = 0 ∧
      ((0xBFFFFFFFFFFFFFFF : UopWord).extractLsb' 61 3).toNat = 5 ∧
        6 ≤ ((0xC000000000000000 : UopWord).extractLsb' 61 3).toNat := by decide

theorem witness_LowerRejectsReservedDescriptorsExactly :
    (given (.lower 0x10) waiting).turns = [.host (.lower 0x10)] ∧ waiting.st ≠ .faulted ∧
      reservedDesc 0x10 ∧ reservedDesc 0x303 ∧ reservedDesc 0xC00C ∧
        ¬ reservedDesc 0x0F ∧ ¬ reservedDesc 0x203 ∧ ¬ reservedDesc 0x800C := by
  unfold reservedDesc
  decide

theorem witness_UnusedDescriptorBitsAreIgnored :
    (decodeDesc 0xC360).toOption = some (.dreg 3) ∧
      (0xFFFFFFFFFFFFFFFFFF60 : DescWord) &&& usedMask (kindOf 0xC360) =
        0xC360 &&& usedMask (kindOf 0xC360) := by decide

theorem witness_StepRunsTheHeadWord :
    (runningOn [0x6000000000000000, 0]).executorNext ∧
      (runningOn [0x6000000000000000, 0]).st = .running ∧
        (runningOn [0x6000000000000000, 0]).q = [0x6000000000000000, 0] ∧
          (decodeUop 0x6000000000000000).toOption = some (.add ⟨.d 0, .d 0, 0, 0, 0⟩) :=
  ⟨⟨_, rfl⟩, rfl, rfl, by decide⟩

theorem witness_StepRunsTheLoweredDescriptor :
    (given (.lower 0x82) waiting).turns = [.host (.lower 0x82)] ∧
      (decodeDesc 0x82).toOption = some (.aind 4) := by decide

theorem witness_ExecutorWaitsOutsideRunning :
    { waiting with turns := [.executor, .executor] }.executorNext ∧ waiting.st ≠ .running :=
  ⟨⟨[.executor], rfl⟩, by decide⟩

/-- ZERO, SET, SCALE and REQMEM: the last temporary is a cell, the one after it is absent. -/
theorem witness_one_operand :
    decodeRef State.reset.nTmp 7 (.tmp 3) = some (.cell (.tmp 3)) ∧
      decodeRef State.reset.nTmp 7 (.tmp 4) = none ∧
        decodeRef State.reset.nTmp 7 (.reserved 0x15) = none ∧
          decodeRef State.reset.nTmp 7 .imm = some (.imm 7) ∧ (0b10#2 ≠ 0b11#2) := by decide

/-- MOV and ADD: a cell and a literal; a bad RB; a written literal with a good RB. -/
theorem witness_two_operands :
    decodeRef State.reset.nTmp 7 (.a 7) = some (.cell (.a 7)) ∧
      decodeRef State.reset.nTmp 7 (.d 0) = some (.cell (.d 0)) ∧
        decodeRef State.reset.nTmp 7 .imm = some (.imm 7) ∧
          decodeRef State.reset.nTmp 7 (.reserved 0x3F) = none ∧
            decodeRef State.reset.nTmp 7 .ccr ≠ none := by decide

/-- REQMEM as the last word: a host write and an answer after it give next states. -/
theorem witness_RequestMemLatchesAndSuspends :
    decodeRef State.reset.nTmp 0 (.a 2) = some (.cell (.a 2)) ∧ State.reset.q = [] ∧
      (after (step (given (.hostWrite 0x0A 5) { State.reset with st := .suspended }))).isSome ∧
        (after (step (given (.resume 5) { State.reset with st := .suspended }))).isSome := by decide

theorem witness_ExecutorFaultsAreCheckUops :
    (runningOn [0xC000000000000000, 0]).executorNext ∧
      (runningOn [0xC000000000000000, 0]).st = .running ∧
        checkUop (runningOn []).nTmp 0xC000000000000000 = some .badUop ∧
          checkUop (runningOn []).nTmp 0x9801800000000000 = some .badUop ∧
            checkUop (runningOn []).nTmp 0x1200000000000000 = some .badRef ∧
              checkUop (runningOn []).nTmp 0x5862000000000000 = some .badRef ∧
                checkUop (runningOn []).nTmp 0x1800000000000000 = some .immWrite ∧
                  checkUop (runningOn []).nTmp 0xB800000000000000 = none ∧
                    checkUop (runningOn []).nTmp 0x1180000000000000 = none :=
  ⟨⟨_, rfl⟩, by decide⟩

theorem witness_WriteChangesExactlyOneCell :
    (Cell.tmp 3).present RegFile.reset.tmp.length = true ∧ Cell.ccr ≠ Cell.tmp 3 := by decide

/-- The hypotheses of `LowersTo`, for the longest sequence: an exact fit, one word too many, Faulted. -/
theorem witness_LowersTo :
    let ws := seqAmipost 0 0x10 (.d 1) .long 4
    let fits := runningOn (List.replicate 6 0)
    let full := runningOn (List.replicate 7 0)
    fits.st ≠ .faulted ∧ fits.q.length + ws.length ≤ fits.qDepth ∧ full.st ≠ .faulted ∧
      full.qDepth < full.q.length + ws.length ∧ failed.st = .faulted := by decide

theorem witness_LowerAppendsWholeOrNothing :
    (given (.lower 0x82) failed).turns = [.host (.lower 0x82)] ∧ failed.st = .faulted ∧
      waiting.st ≠ .faulted ∧ reservedDesc 0x10 ∧ ¬ reservedDesc 0x82 ∧
        ((translateDesc 0x82).toOption.map (·.length)) = some 2 ∧
          (runningOn (List.replicate 14 0)).q.length + 2 ≤ (runningOn []).qDepth ∧
            (runningOn []).qDepth < (runningOn (List.replicate 15 0)).q.length + 2 := by
  unfold reservedDesc
  decide

/-- Every kind has a descriptor that translates. -/
theorem witness_SequenceLengthsAndFetchCounts :
    ∀ k : Fin 16, (translateDesc (BitVec.ofNat 80 k.val)).toOption.isSome = true ∧
      kindOf (BitVec.ofNat 80 k.val) = k.val := by decide

theorem witness_Ready : Ready State.reset := ⟨rfl, rfl, by decide⟩

/-- The kinds of the statements on what a descriptor does, with the largest size and scale. -/
theorem witness_kinds :
    kindOf 0x60 = 0 ∧ kindOf 0xC1 = 1 ∧ kindOf 0x82 = 2 ∧
      (kindOf 0x2E3 = 3 ∧ sizeField 0x2E3 ≠ 3) ∧ (kindOf 0x2E4 = 4 ∧ sizeField 0x2E4 ≠ 3) ∧
        kindOf 0x25 = 5 ∧ kindOf 0x09 = 9 ∧ (kindOf 0x8806 = 6 ∧ scaleField 0x8806 ≠ 3) ∧
          (kindOf 0x880A = 10 ∧ scaleField 0x880A ≠ 3) ∧ (kindOf 0x8807 = 7 ∧ scaleField 0x8807 ≠ 3) ∧
            (kindOf 0x880B = 11 ∧ scaleField 0x880B ≠ 3) ∧
              (kindOf 0x8808 = 8 ∧ scaleField 0x8808 ≠ 3) ∧
                (kindOf 0x880C = 12 ∧ scaleField 0x880C ≠ 3) ∧
                  kindOf 0x0D = 13 ∧ kindOf 0x0E = 14 ∧ kindOf 0x0F = 15 := by decide

theorem witness_ResumeStoresTheAnswerAndGoesOn :
    (given (.resume 5) waiting).turns = [.host (.resume 5)] ∧
      (given (.resume 5) waiting).st = .suspended ∧ (given (.resume 5) failed).st ≠ .suspended := by
  decide

theorem witness_FailAbortsWithFetchFail :
    (given .fail waiting).turns = [.host .fail] ∧ (given .fail waiting).st = .suspended ∧
      (given .fail failed).st ≠ .suspended := by decide

theorem witness_FlushDiscardsTheQueue :
    (given .flush waiting).turns = [.host .flush] ∧ (given .flush waiting).st = .suspended ∧
      (given .flush (runningOn [0])).st ≠ .suspended := by decide

theorem witness_AckFaultClearsAndIdles :
    (given .ackFault failed).turns = [.host .ackFault] ∧ (given .ackFault failed).st = .faulted ∧
      (given .ackFault waiting).st ≠ .faulted := by decide

theorem witness_HostPortReadsAndWritesCells :
    (given (.hostRead 0x23) waiting).turns = [.host (.hostRead 0x23)] ∧
      (given (.hostWrite 0x23 5) waiting).turns = [.host (.hostWrite 0x23 5)] ∧
        refOfCode waiting.nTmp 0 0x23 = some (.cell (.tmp 3)) ∧
          refOfCode waiting.nTmp 0 0x24 = none ∧ refOfCode waiting.nTmp 0 0x30 = some (.imm 0) ∧
            waiting.st ≠ .running ∧ (runningOn [0]).st = .running := by decide

theorem witness_StatusWordsShowTheControlState :
    (given (.statusRead 1) waiting).turns = [.host (.statusRead 1)] ∧ waiting.q.length ≤ 255 ∧
      waiting.st = .suspended := by decide

theorem witness_ResetCommandReachesIdle :
    { waiting with turns := [.host .reset, .host .fail] }.turns =
      .host .reset :: [.host .fail] := by decide

theorem witness_RefusalsAreTheTablesAndChangeNothing :
    (given (.lower 0x10) waiting).turns = .host (.lower 0x10) :: [] ∧
      seen (commanded (.lower 0x10) waiting) (·.reply.map (·.response)) =
        some (.suspended, some .descReserved) ∧
      seen (commanded (.lower 0x82) (runningOn (List.replicate 15 0))) (·.reply.map (·.response)) =
        some (.running, some .queueFull) := by decide

/-- A state of a run: Running, with a descriptor's words queued. -/
theorem witness_inv : Inv (runningOn (seqDreg 0)) where
  params := ⟨by decide, by decide, by decide, by decide⟩
  control := ⟨by decide, by decide, by decide, by decide, by decide, by decide⟩
  queue := fun _ h => ⟨.dreg 0, h⟩

theorem witness_EveryStepKeepsTheInvariant :
    Inv (runningOn (seqDreg 0)) ∧ ∃ t, step (runningOn (seqDreg 0)) = .next t :=
  ⟨witness_inv, _, rfl⟩

theorem witness_EveryInterleavingRuns :
    let s := (runningOn (seqDreg 0)).withTurns [.host .flush, .executor, .host .reset]
    Inv s ∧ s.turns = [.host .flush, .executor] ++ [.host .reset] :=
  ⟨witness_inv.withTurns _, rfl⟩

theorem witness_TheExecutorIsWeaklyFair :
    Inv ((runningOn (seqDreg 0)).withTurns []) ∧ State.reset.turns = [] :=
  ⟨witness_inv.withTurns _, rfl⟩

theorem witness_TranslatorOutputNeverFaults :
    Inv (runningOn (seqDreg 0)) ∧ NoExecutorFault (runningOn (seqDreg 0)) ∧
      ∃ t, step (runningOn (seqDreg 0)) = .next t :=
  ⟨witness_inv, .inl rfl, _, rfl⟩

theorem witness_FaultedIsLeftByAckOrResetAlone :
    failed.st = .faulted ∧ ∃ t, step (given .ackFault failed) = .next t := ⟨rfl, _, rfl⟩

theorem witness_SuspendedIsLeftByAnAnswerAlone :
    waiting.st = .suspended ∧ ∃ t, step (given (.resume 5) waiting) = .next t := ⟨rfl, _, rfl⟩

theorem witness_RequestsComeFromRequestMemAlone :
    (runningOn [wReqA 2]).st ≠ .suspended ∧
      ∃ t, step (runningOn [wReqA 2]) = .next t ∧ t.st = .suspended :=
  ⟨by decide, _, rfl, rfl⟩

theorem witness_QueueChangesOnlyAtItsEnds :
    ∃ t, step (given (.lower 0x82) waiting) = .next t := ⟨_, rfl⟩

theorem witness_TranslatorOutputKeepsDataRegistersPcAndCcr :
    QueueEmitted (runningOn (seqDreg 0)) ∧ (runningOn (seqDreg 0)).executorNext ∧
      ∃ t, step (runningOn (seqDreg 0)) = .next t :=
  ⟨witness_inv.queue, ⟨_, rfl⟩, _, rfl⟩

/-- A cell does change: `resume` writes IOBuffer. -/
theorem witness_CellsChangeOnlyWhenNamed :
    ∃ t, step (given (.resume 5) waiting) = .next t ∧
      t.rf.read .ioBuffer ≠ waiting.rf.read .ioBuffer :=
  ⟨_, rfl, by decide⟩

theorem witness_ParametersNeverChange : ∃ t, step (given .reset waiting) = .next t := ⟨_, rfl⟩

theorem witness_ResumeOverwritesAHostWriteToIoBuffer : waiting.st = .suspended := rfl

end Sys2Proof.Tests
end

section
/-! PROOFS. The parameters of 00_scope.md R8: no transition changes N_TMP or Q_DEPTH. -/

namespace Sys2Proof.Machine

/-- `t` is a state of an instance with the parameters `s` has. -/
def State.SameParams (s t : State) : Prop := t.nTmp = s.nTmp ∧ t.qDepth = s.qDepth

variable {s t : State}

/-! ### `lower` and the host commands -/

theorem State.append_sameParams (s : State) (l : List UopWord) : s.SameParams (s.append l) := by
  obtain ⟨-, h⟩ | ⟨-, -, h⟩ | ⟨-, -, h⟩ := s.append_cases l <;> simp [SameParams, h]

theorem State.resume_sameParams (s : State) (v : Word) : s.SameParams (s.resume v) := by
  by_cases h : s.st = .suspended
  · simp [SameParams, resume_suspended v h]
  · simp [SameParams, resume_other v h]

theorem State.failFetch_sameParams (s : State) : s.SameParams s.failFetch := by
  by_cases h : s.st = .suspended
  · simp [SameParams, failFetch_suspended h]
  · simp [SameParams, failFetch_other h]

theorem State.flush_sameParams (s : State) : s.SameParams s.flush := by
  by_cases h : s.st = .suspended
  · simp [SameParams, flush_suspended h]
  · simp [SameParams, flush_other h]

theorem State.ackFault_sameParams (s : State) : s.SameParams s.ackFault := by
  by_cases h : s.st = .faulted
  · simp [SameParams, ackFault_faulted h]
  · simp [SameParams, ackFault_other h]

theorem State.hostRead_sameParams (s : State) (c : BitVec 6) : s.SameParams (s.hostRead c) := by
  obtain ⟨x, -, h⟩ | ⟨-, h⟩ := s.hostRead_cases c <;> simp [SameParams, h]

theorem State.hostWrite_sameParams (s : State) (c : BitVec 6) (v : Word) :
    s.SameParams (s.hostWrite c v) := by
  obtain ⟨x, -, -, h⟩ | ⟨x, -, -, h⟩ | ⟨-, h⟩ := s.hostWrite_cases c v <;> simp [SameParams, h]

theorem State.statusRead_sameParams (s : State) (sel : BitVec 2) :
    s.SameParams (s.statusRead sel) := by
  obtain ⟨v, h | ⟨-, h⟩⟩ := s.statusRead_cases sel <;> simp [SameParams, h]

/-- Reset draws as many temporaries as there were. -/
theorem State.resetCommand_sameParams (s : State) : s.SameParams s.resetCommand := by
  simp [SameParams, resetCommand]

/-! ### The two turns -/

/-- Whichever way a micro-operation ends (fault entry, a write, a request), the parameters stay. -/
theorem exec_uop_sameParams (op : OpCode) (u : Uop) (h : exec (op.instr u) s = .next t) :
    s.SameParams t := by
  obtain ⟨f, -, hx⟩ | ⟨-, c, v, -, hx⟩ | ⟨-, a, -, hx⟩ := exec_uop_cases op u s <;>
    obtain rfl := Host.Outcome.next.inj (hx.symm.trans h) <;> simp [State.SameParams]

/-- In Running with an empty queue, which 10_state.md R27 excludes, the machine stops. -/
theorem step_executor_stops (he : s.executorNext) (hs : s.st = .running) (hq : s.q = []) :
    step s = .fault .runningWithEmptyQueue := by
  have hst : s.taken.st = .running := hs
  have hnil : s.taken.q = [] := hq
  simp [step_executor he, executorTurn, hst, hnil, perform]

theorem step_executor_sameParams (he : s.executorNext) (h : step s = .next t) :
    s.SameParams t := by
  by_cases hs : s.st = .running
  · cases hq : s.q with
    | nil => cases (step_executor_stops he hs hq).symm.trans h
    | cons w rest =>
      rw [step_executor_runs he hs hq] at h
      cases hd : decodeUop w with
      | ok i =>
        obtain ⟨op, -, rfl⟩ := decodeUop_eq_ok hd
        rw [hd] at h
        exact exec_uop_sameParams (s := s.taken.popped rest) op (uopFields w) h
      | error r =>
        rw [hd] at h
        cases h
        exact ⟨rfl, rfl⟩
  · cases (step_executor_waits he hs).symm.trans h
    exact ⟨rfl, rfl⟩

theorem step_host_sameParams {c : Command} {ts : List Turn} (hc : s.turns = .host c :: ts)
    (h : step s = .next t) : s.SameParams t := by
  cases c with
  | lower e =>
    cases hd : decodeDesc e with
    | ok i => cases (step_lower_ok hc hd).symm.trans h; exact s.taken.append_sameParams _
    | error r => cases (step_lower_error hc hd).symm.trans h; exact ⟨rfl, rfl⟩
  | resume v => cases (step_host hc).symm.trans h; exact s.taken.resume_sameParams v
  | fail => cases (step_host hc).symm.trans h; exact s.taken.failFetch_sameParams
  | flush => cases (step_host hc).symm.trans h; exact s.taken.flush_sameParams
  | ackFault => cases (step_host hc).symm.trans h; exact s.taken.ackFault_sameParams
  | hostRead k => cases (step_host hc).symm.trans h; exact s.taken.hostRead_sameParams k
  | hostWrite k v => cases (step_host hc).symm.trans h; exact s.taken.hostWrite_sameParams k v
  | statusRead sel => cases (step_host hc).symm.trans h; exact s.taken.statusRead_sameParams sel
  | reset => cases (step_host hc).symm.trans h; exact s.taken.resetCommand_sameParams

theorem step_sameParams (h : step s = .next t) : s.SameParams t := by
  obtain hn | he | ⟨c, ts, hc⟩ := step_turns s
  · cases (step_draws hn).symm.trans h
    exact ⟨rfl, rfl⟩
  · exact step_executor_sameParams he h
  · exact step_host_sameParams hc h

/-- Settles O58: each host command and each way a micro-operation can end keeps both parameters. -/
theorem parametersNeverChange : Obligations.ParametersNeverChange :=
  fun _ _ => step_sameParams

end Sys2Proof.Machine
end

section
/-! PROOFS. Reference codes and micro-instruction words: the decoder inverts the encoder on a field,
and the spec's reading of a code on bits is the decoder's (30_encoding.md R54, R55, R57). -/

namespace Sys2Proof

/-- A reference is read back from its code. -/
theorem RefCode.ofBits_bits {r : RefCode} (h : r.wf = true) : RefCode.ofBits r.bits = r := by
  cases r with
  | d n => revert n; decide
  | a n => revert n; decide
  | tmp k => revert k; decide
  | reserved c => revert c; decide
  | pc | ccr | in0 | in1 | ioBuffer | imm => rfl

/-- The RA field of a word (30_encoding.md R57). -/
@[simp] theorem encodeUop_ra (op : OpCode) (u : Uop) :
    (encodeUop op u).extractLsb' 55 6 = u.ra.bits := by
  simp [encodeUop, BitVec.extractLsb'_or, extract_place_self, extract_place_ne]

/-- A word is made of its fields. -/
theorem place_fields (w : UopWord) :
    place 64 61 (w.extractLsb' 61 3) ||| place 64 55 (w.extractLsb' 55 6) |||
      place 64 49 (w.extractLsb' 49 6) ||| place 64 47 (w.extractLsb' 47 2) |||
      place 64 32 (w.extractLsb' 32 15) ||| place 64 0 (w.extractLsb' 0 32) = w := by
  apply BitVec.eq_of_getLsbD_eq
  intro i hi
  simp only [BitVec.getLsbD_or, place_getLsbD, BitVec.getLsbD_extractLsb']
  interval_cases i <;> simp

/-- A word with a valid OP is the encoding of what it decodes to. -/
theorem encodeUop_uopFields {w : UopWord} {op : OpCode} (h : w.extractLsb' 61 3 = op.bits) :
    encodeUop op (uopFields w) = w := by
  simpa [encodeUop, uopFields, ← h] using place_fields w

end Sys2Proof

namespace Sys2Proof.Machine

theorem refOfCode_bits (n : Nat) (lit : Word) {r : RefCode} (h : r.wf = true) :
    refOfCode n lit r.bits = decodeRef n lit r := by
  cases r with
  | d k => fin_cases k <;> rfl
  | a k => fin_cases k <;> rfl
  | tmp k => fin_cases k <;> simp [refOfCode, RefCode.bits, decodeRef]
  | reserved c =>
    simp only [RefCode.wf, RefCode.isReservedCode, BitVec.le_def, Bool.or_eq_true, Bool.and_eq_true,
      decide_eq_true_eq, BitVec.reduceToNat] at h
    change refOfCode n lit c = none
    simp (disch := omega) only [refOfCode, if_neg]
  | pc | ccr | in0 | in1 | ioBuffer | imm => rfl

theorem refOfCode_eq_decodeRef (n : Nat) (lit : Word) (c : BitVec 6) :
    refOfCode n lit c = decodeRef n lit (RefCode.ofBits c) := by
  simpa using refOfCode_bits n lit (RefCode.wf_ofBits c)

/-- The literal decides nothing about which cell a code names. -/
theorem decodeRef_cell_lit {n : Nat} {lit lit' : Word} {r : RefCode} {x : Cell}
    (h : decodeRef n lit r = some (.cell x)) : decodeRef n lit' r = some (.cell x) := by
  cases r with
  | imm => simp [decodeRef] at h
  | d | a | pc | ccr | in0 | in1 | ioBuffer | tmp | reserved => exact h

theorem storageCell?_eq_some {n : Nat} {r : RefCode} {x : Cell} :
    storageCell? n r = some x ↔ decodeRef n 0 r = some (.cell x) := by
  unfold storageCell?
  split <;> simp_all

end Sys2Proof.Machine
end

section
/-! PROOFS. What one transition does, by whose turn it is: one inductive predicate per party, each
with the lemma that a step has one of its effects. -/

namespace Sys2Proof.Machine

variable {s t : State}

/-- What an executor's turn does (41_micro_instructions.md R78, R87): outside Running nothing; in
Running it takes the head `w` off the queue and faults on it, writes the one cell RA names, or
suspends with the address RA reads as. -/
inductive ExecutorEffect (s : State) : State → Prop
  | waits (hs : s.st ≠ .running) : ExecutorEffect s s.taken
  | faults {w : UopWord} {rest : List UopWord} {f : FaultCode} (hs : s.st = .running)
      (hq : s.q = w :: rest) (hf : f.isExecutors = true) :
      ExecutorEffect s ((s.taken.popped rest).faultEntry f w)
  | writes {w : UopWord} {rest : List UopWord} {op : OpCode} {c : Cell} (v : Word)
      (hs : s.st = .running) (hq : s.q = w :: rest) (hop : w.extractLsb' 61 3 = op.bits)
      (hne : op ≠ .reqmem)
      (hc : decodeRef s.nTmp (uopFields w).lit (uopFields w).ra = some (.cell c)) :
      ExecutorEffect s ((s.taken.popped rest).write c v).proceed
  | requests {w : UopWord} {rest : List UopWord} {a : Operand} (hs : s.st = .running)
      (hq : s.q = w :: rest) (hop : w.extractLsb' 61 3 = OpCode.reqmem.bits)
      (ha : decodeRef s.nTmp (uopFields w).lit (uopFields w).ra = some a) :
      ExecutorEffect s ((s.taken.popped rest).suspend (s.read a))

theorem executorEffect_of_step (he : s.executorNext) (h : step s = .next t) :
    ExecutorEffect s t := by
  by_cases hs : s.st = .running
  · cases hq : s.q with
    | nil => cases (step_executor_stops he hs hq).symm.trans h
    | cons w rest =>
      rw [step_executor_runs he hs hq] at h
      cases hd : decodeUop w with
      | error r =>
        rw [hd] at h
        cases h
        exact .faults hs hq rfl
      | ok i =>
        obtain ⟨op, hop, rfl⟩ := decodeUop_eq_ok hd
        rw [opOfBits?_eq_some] at hop
        rw [hd] at h
        obtain ⟨f, hf, hx⟩ | ⟨hne, c, v, hc, hx⟩ | ⟨rfl, a, ha, hx⟩ :=
          exec_uop_cases op (uopFields w) (s.taken.popped rest)
        · rw [encodeUop_uopFields hop] at hx
          cases hx.symm.trans h
          exact .faults hs hq hf
        · cases hx.symm.trans h
          exact .writes v hs hq hop hne hc
        · cases hx.symm.trans h
          exact .requests hs hq hop ha
  · cases (step_executor_waits he hs).symm.trans h
    exact .waits hs

theorem translateDesc_ok {e : DescWord} {i : Instr} (h : decodeDesc e = .ok i) :
    translateDesc e = .ok (loweringOf i) := by
  simp [translateDesc, h, Except.map]

/-- What the host's command `c` does to the block (41_micro_instructions.md R93 to R98,
40_register_file.md R76, 10_state.md R30, 70_reset_and_hazards.md R139). A refusal and an accepted
read are answers alone. -/
inductive HostEffect (s : State) : Command → State → Prop
  | answers (c : Command) (r : Response) (v : Option Word) : HostEffect s c (s.taken.answer r v)
  | drawsWord (sel : BitVec 2) (v : Word) :
      HostEffect s (.statusRead sel) (s.taken.drawOne.answer .ok (some v))
  | lowers {e : DescWord} {i : Instr} (hd : decodeDesc e = .ok i) (hs : s.st ≠ .faulted)
      (hfit : s.q.length + (loweringOf i).length ≤ s.qDepth) :
      HostEffect s (.lower e) ((s.taken.enqueue (loweringOf i)).answer .ok)
  | resumes (v : Word) (hs : s.st = .suspended) :
      HostEffect s (.resume v) ((s.taken.write .ioBuffer v).proceed.answer .ok)
  | failsFetch (hs : s.st = .suspended) :
      HostEffect s .fail ((s.taken.faultEntry .fetchFail (s.pendAddr.setWidth 64)).answer .ok)
  | flushes (hs : s.st ≠ .suspended) : HostEffect s .flush (s.taken.discard.answer .ok)
  | acknowledges (hs : s.st = .faulted) : HostEffect s .ackFault (s.taken.leaveFault.answer .ok)
  | writes {k : BitVec 6} (v : Word) {x : Cell} (hs : s.st ≠ .running)
      (hx : storageCell? s.nTmp (RefCode.ofBits k) = some x) :
      HostEffect s (.hostWrite k v) ((s.taken.write x v).answer .ok)
  | resets : HostEffect s .reset (s.taken.resetBlock.answer .ok)

theorem hostEffect_of_step {c : Command} {ts : List Turn} (hc : s.turns = .host c :: ts)
    (h : step s = .next t) : HostEffect s c t := by
  have hstep := (step_host hc).symm.trans h
  cases c with
  | lower e =>
    cases hd : decodeDesc e with
    | error r => cases (step_lower_error hc hd).symm.trans h; exact .answers ..
    | ok i =>
      cases (step_lower_ok hc hd).symm.trans h
      obtain ⟨-, ha⟩ | ⟨-, -, ha⟩ | ⟨hs, hfit, ha⟩ := s.taken.append_cases (loweringOf i) <;> rw [ha]
      · exact .answers ..
      · exact .answers ..
      · exact .lowers hd hs hfit
  | resume v =>
    cases hstep
    by_cases hs : s.taken.st = .suspended
    · rw [State.resume_suspended v hs]; exact .resumes v hs
    · rw [State.resume_other v hs]; exact .answers ..
  | fail =>
    cases hstep
    by_cases hs : s.taken.st = .suspended
    · rw [State.failFetch_suspended hs]; exact .failsFetch hs
    · rw [State.failFetch_other hs]; exact .answers ..
  | flush =>
    cases hstep
    by_cases hs : s.taken.st = .suspended
    · rw [State.flush_suspended hs]; exact .answers ..
    · rw [State.flush_other hs]; exact .flushes hs
  | ackFault =>
    cases hstep
    by_cases hs : s.taken.st = .faulted
    · rw [State.ackFault_faulted hs]; exact .acknowledges hs
    · rw [State.ackFault_other hs]; exact .answers ..
  | hostRead k =>
    cases hstep
    obtain ⟨x, -, ha⟩ | ⟨-, ha⟩ := s.taken.hostRead_cases k <;> rw [ha] <;> exact .answers ..
  | hostWrite k v =>
    cases hstep
    obtain ⟨x, hx, hs, ha⟩ | ⟨x, -, -, ha⟩ | ⟨-, ha⟩ := s.taken.hostWrite_cases k v <;> rw [ha]
    · exact .writes v hs hx
    · exact .answers ..
    · exact .answers ..
  | statusRead sel =>
    cases hstep
    obtain ⟨v, ha | ⟨-, ha⟩⟩ := s.taken.statusRead_cases sel <;> rw [ha]
    · exact .answers ..
    · exact .drawsWord sel v
  | reset => cases hstep; exact .resets

/-! ### The queue (10_state.md R26) -/

/-- Settles O55: by the effects of each party's turn. -/
theorem queueChangesOnlyAtItsEnds : Obligations.QueueChangesOnlyAtItsEnds := by
  intro s t h
  obtain hn | he | ⟨c, ts, hc⟩ := step_turns s
  · cases (step_draws hn).symm.trans h
    exact .inl rfl
  · cases executorEffect_of_step he h with
    | waits => exact .inl rfl
    | faults => exact .inr (.inr (.inr ⟨rfl, .inl rfl⟩))
    | writes v hs hq => exact .inr (.inl ⟨he, hs, _, hq⟩)
    | requests hs hq => exact .inr (.inl ⟨he, hs, _, hq⟩)
  · cases hostEffect_of_step hc h with
    | lowers hd =>
      exact .inr (.inr (.inl ⟨_, ts, _, hc, translateDesc_ok hd, rfl⟩))
    | failsFetch => exact .inr (.inr (.inr ⟨rfl, .inl rfl⟩))
    | flushes => exact .inr (.inr (.inr ⟨rfl, .inr (.inl ⟨ts, hc⟩)⟩))
    | resets => exact .inr (.inr (.inr ⟨rfl, .inr (.inr ⟨ts, hc⟩)⟩))
    | answers | drawsWord | resumes | acknowledges | writes => exact .inl rfl

end Sys2Proof.Machine
end

section
/-! PROOFS. The block's invariant (10_state.md R26, R27, R29; 00_scope.md R8): it holds at reset and
every step keeps each of its three parts. -/

namespace Sys2Proof.Machine

variable {s t : State}

theorem ParamsInRange.of_sameParams (hp : ParamsInRange s) (h : s.SameParams t) :
    ParamsInRange t := by
  obtain ⟨hn, hd⟩ := h
  exact ⟨hn ▸ hp.nTmpLow, hn ▸ hp.nTmpHigh, hd ▸ hp.depthLow, hd ▸ hp.depthHigh⟩

/-! ### The queue holds the translator's words -/

theorem translateDesc_emitted {e : DescWord} {seq : List UopWord}
    (h : translateDesc e = .ok seq) : ∀ w ∈ seq, Emitted w := by
  unfold translateDesc at h
  cases hd : decodeDesc e with
  | error r => rw [hd] at h; cases h
  | ok i => rw [hd] at h; cases h; exact fun w hw => ⟨i, hw⟩

/-- What is taken off, appended or emptied keeps the queue the translator's. -/
theorem step_queueEmitted (hQ : QueueEmitted s) (h : step s = .next t) : QueueEmitted t := by
  unfold QueueEmitted at *
  obtain hq | ⟨-, -, w, hq⟩ | ⟨e, ts, seq, -, hseq, hq⟩ | ⟨hq, -⟩ :=
    queueChangesOnlyAtItsEnds s t h
  · rwa [hq]
  · rw [hq] at hQ
    exact (List.forall_mem_cons.mp hQ).2
  · rw [hq]
    exact List.forall_mem_append.mpr ⟨hQ, translateDesc_emitted hseq⟩
  · simp [hq]

/-! ### The control state -/

/-- The control state alone decides `ControlInv`. -/
theorem ControlInv.congr (h : ControlInv s) (hst : t.st = s.st) (hq : t.q = s.q)
    (hf : t.fcode = s.fcode) (hi : t.finfo = s.finfo) (hd : t.qDepth = s.qDepth) :
    ControlInv t := by
  constructor <;> simp only [hst, hq, hf, hi, hd]
  exacts [h.idleEmpty, h.runNonempty, h.faultedEmpty, h.faultedCode, h.noFaultInfo, h.fits]

/-- Outside Faulted no fault is recorded. -/
theorem ControlInv.noFault (h : ControlInv s) (hs : s.st ≠ .faulted) :
    s.fcode = .none ∧ s.finfo = 0 := by
  have hf : s.fcode = .none := by_contra fun hne => hs (h.faultedCode.mpr hne)
  exact ⟨hf, h.noFaultInfo hf⟩

theorem controlInv_faultEntry {f : FaultCode} (hf : f ≠ .none) (w : BitVec 64) :
    ControlInv (s.faultEntry f w) := by
  constructor <;> simp [hf]

theorem controlInv_proceed (hf : s.fcode = .none) (hi : s.finfo = 0)
    (hfit : s.q.length ≤ s.qDepth) : ControlInv s.proceed := by
  cases hq : s.q <;> constructor <;> simp_all

theorem controlInv_suspend (hf : s.fcode = .none) (hi : s.finfo = 0)
    (hfit : s.q.length ≤ s.qDepth) (a : Word) : ControlInv (s.suspend a) := by
  constructor <;> simp_all

theorem loweringOf_ne_nil {i : Instr} (h : i.isDesc = true) : loweringOf i ≠ [] := by
  cases i with
  | zero | set | mov | add | scale | reqmem => cases h
  | dreg | areg | aind | apost | apre | adisp | aidx | amipost | amipre | pcdisp | pcidx | pcmipost
  | pcmipre | absw | absl | imm => exact List.cons_ne_nil _ _

/-- The append of 42_addressing_modes.md R98, for each ST it can find. -/
theorem controlInv_enqueue (h : ControlInv s) (hs : s.st ≠ .faulted) {l : List UopWord}
    (hne : l ≠ []) (hfit : s.q.length + l.length ≤ s.qDepth) : ControlInv (s.enqueue l) := by
  obtain ⟨hf, hi⟩ := h.noFault hs
  cases hst : s.st <;> constructor <;> simp_all

/-- A flush empties the queue and leaves Running; the fault record stays with ST. -/
theorem controlInv_discard (h : ControlInv s) : ControlInv s.discard := by
  obtain ⟨-, -, -, hcode, hinfo, -⟩ := h
  cases hst : s.st <;> constructor <;> simp_all

theorem controlInv_leaveFault (h : ControlInv s) (hs : s.st = .faulted) :
    ControlInv s.leaveFault := by
  constructor <;> simp [h.faultedEmpty hs]

theorem controlInv_resetBlock (s : State) : ControlInv s.resetBlock := by
  constructor <;> simp

theorem ControlInv.taken (h : ControlInv s) : ControlInv s.taken := h.congr rfl rfl rfl rfl rfl

theorem ControlInv.answer (h : ControlInv s) (r : Response) (v : Option Word) :
    ControlInv (s.answer r v) := h.congr rfl rfl rfl rfl rfl

/-- In Running no fault is recorded, and the queue without its head is within its capacity. -/
theorem ControlInv.running_pop (h : ControlInv s) (hs : s.st = .running) {w : UopWord}
    {rest : List UopWord} (hq : s.q = w :: rest) :
    s.fcode = .none ∧ s.finfo = 0 ∧ rest.length ≤ s.qDepth := by
  obtain ⟨hf, hi⟩ := h.noFault (by simp [hs])
  have hfit := h.fits
  rw [hq, List.length_cons] at hfit
  exact ⟨hf, hi, by omega⟩

theorem ControlInv.executorEffect (h : ControlInv s) (he : ExecutorEffect s t) : ControlInv t := by
  cases he with
  | waits => exact h.taken
  | faults _ _ hf => exact controlInv_faultEntry (by rintro rfl; cases hf) _
  | writes v hs hq =>
    obtain ⟨hf, hi, hfit⟩ := h.running_pop hs hq
    exact controlInv_proceed hf hi hfit
  | requests hs hq =>
    obtain ⟨hf, hi, hfit⟩ := h.running_pop hs hq
    exact controlInv_suspend (s := s.taken.popped _) hf hi hfit _

theorem ControlInv.hostEffect {c : Command} (h : ControlInv s) (he : HostEffect s c t) :
    ControlInv t := by
  cases he with
  | answers _ r v => exact h.taken.answer r v
  | drawsWord | writes => exact h.congr rfl rfl rfl rfl rfl
  | lowers hd hs hfit =>
    exact (controlInv_enqueue h.taken hs (loweringOf_ne_nil (decodeDesc_isDesc hd)) hfit).answer _ _
  | resumes v hs =>
    obtain ⟨hf, hi⟩ := h.noFault (by simp [hs])
    exact (controlInv_proceed (s := s.taken.write .ioBuffer v) hf hi h.fits).answer _ _
  | failsFetch => exact (controlInv_faultEntry (by decide) _).answer _ _
  | flushes => exact (controlInv_discard h.taken).answer _ _
  | acknowledges hs => exact (controlInv_leaveFault h.taken hs).answer _ _
  | resets => exact (controlInv_resetBlock _).answer _ _

theorem step_controlInv (hC : ControlInv s) (h : step s = .next t) : ControlInv t := by
  obtain hn | he | ⟨c, ts, hc⟩ := step_turns s
  · cases (step_draws hn).symm.trans h
    exact hC.congr rfl rfl rfl rfl rfl
  · exact hC.executorEffect (executorEffect_of_step he h)
  · exact hC.hostEffect (hostEffect_of_step hc h)

/-- Settles O46: each part of the invariant is kept by itself; the queue's part follows from how the
queue can change. -/
theorem everyStepKeepsTheInvariant : Obligations.EveryStepKeepsTheInvariant :=
  fun _ _ hI h =>
    { params := hI.params.of_sameParams (step_sameParams h)
      control := step_controlInv hI.control h
      queue := step_queueEmitted hI.queue h }

/-- Settles O44, by evaluating the state after reset. -/
theorem resetStateIsIdle : Obligations.ResetStateIsIdle :=
  ⟨rfl, rfl, rfl, rfl⟩

/-- Settles O47: the parameters by evaluation, the control state from O44, and the queue is empty. -/
theorem resetStateMeetsTheInvariant : Obligations.ResetStateMeetsTheInvariant where
  params := by constructor <;> decide
  control := by
    obtain ⟨hst, hq, hf, hi⟩ := resetStateIsIdle
    constructor <;> simp [hst, hq, hf, hi]
  queue := by
    obtain ⟨-, hq, -, -⟩ := resetStateIsIdle
    simp [QueueEmitted, hq]

end Sys2Proof.Machine
end

section
/-! PROOFS. Which cells a step changes (10_state.md R17, R18, R21, R22, R24;
41_micro_instructions.md R80). -/

namespace Sys2Proof.Machine

variable {s t : State}

/-! ### Cells change only when named -/

/-- A cell that a write changed is the cell written. -/
theorem RegFile.eq_of_read_write_ne {rf : RegFile} {c x : Cell} {v : Word}
    (h : (rf.write c v).read x ≠ rf.read x) : x = c :=
  by_contra fun hne => h (rf.read_write_ne c x v hne)

/-- Every operation but REQMEM has an OP of 000 to 100 (30_encoding.md R58). -/
theorem OpCode.bits_le_four {op : OpCode} (h : op ≠ .reqmem) : op.bits.toNat ≤ 4 := by
  cases op with
  | reqmem => exact absurd rfl h
  | zero | set | mov | add | scale => decide

/-- Settles O57: of all effects only a word's write, a host's write, `resume` and reset touch the
register file, and a write changes no cell but its own. -/
theorem cellsChangeOnlyWhenNamed : Obligations.CellsChangeOnlyWhenNamed := by
  intro s t x h hx
  obtain hn | he | ⟨k, ts, hk⟩ := step_turns s
  · cases (step_draws hn).symm.trans h
    exact absurd rfl hx
  · cases executorEffect_of_step he h with
    | waits | faults | requests => exact absurd rfl hx
    | writes v hs hq hop hne hc =>
      obtain rfl := RegFile.eq_of_read_write_ne hx
      refine .inl ⟨he, hs, _, _, hq, hop ▸ OpCode.bits_le_four hne, ?_⟩
      rw [refOfCode_eq_decodeRef]
      exact decodeRef_cell_lit hc
  · cases hostEffect_of_step hk h with
    | answers | drawsWord | lowers | failsFetch | flushes | acknowledges => exact absurd rfl hx
    | resumes v hs => exact .inr (.inr (.inl ⟨v, ts, hk, hs, RegFile.eq_of_read_write_ne hx⟩))
    | writes v hs hc =>
      obtain rfl := RegFile.eq_of_read_write_ne hx
      refine .inr (.inl ⟨_, v, ts, hk, hs, ?_⟩)
      rw [refOfCode_eq_decodeRef]
      exact storageCell?_eq_some.mp hc
    | resets => exact .inr (.inr (.inr ⟨ts, hk⟩))

/-! ### The translator's destinations -/

/-- The cells a translated word may write: In0, In1 and the address registers
(42_addressing_modes.md R101). -/
def RefCode.IsTranslatorDest (r : RefCode) : Prop := r = .in0 ∨ r = .in1 ∨ ∃ n, r = .a n

/-- A request, or a word that writes a translator's destination. -/
def WritesTranslatorDest (w : UopWord) : Prop :=
  ∃ op u, w = encodeUop op u ∧ (op ≠ .reqmem → RefCode.IsTranslatorDest u.ra)

theorem writesTranslatorDest_request (u : Uop) : WritesTranslatorDest (encodeUop .reqmem u) :=
  ⟨_, u, rfl, fun h => absurd rfl h⟩

theorem writesTranslatorDest_of_ra (op : OpCode) {u : Uop} (h : RefCode.IsTranslatorDest u.ra) :
    WritesTranslatorDest (encodeUop op u) := ⟨op, u, rfl, fun _ => h⟩

theorem uMov_in0_dest (src : RefCode) : WritesTranslatorDest (uMov .in0 src) :=
  writesTranslatorDest_of_ra _ (.inl rfl)

theorem uAddImm_in0_dest (v : Word) : WritesTranslatorDest (uAddImm .in0 v) :=
  writesTranslatorDest_of_ra _ (.inl rfl)

theorem uAddImm_a_dest (n : RegNum) (v : Word) : WritesTranslatorDest (uAddImm (.a n) v) :=
  writesTranslatorDest_of_ra _ (.inr (.inr ⟨n, rfl⟩))

theorem fetchRef_dest (a : RefCode) : ∀ w ∈ fetchRef a, WritesTranslatorDest w := by
  simpa [fetchRef] using ⟨writesTranslatorDest_request _, uMov_in0_dest _⟩

theorem fetchImm_dest (v : Word) : ∀ w ∈ fetchImm v, WritesTranslatorDest w := by
  simpa [fetchImm] using ⟨writesTranslatorDest_request _, uMov_in0_dest _⟩

theorem base_dest (b : RefCode) (d : Word) : ∀ w ∈ base b d, WritesTranslatorDest w := by
  simpa [base] using ⟨uMov_in0_dest _, uAddImm_in0_dest _⟩

theorem index_dest (x : IndexReg) (sc : OperandSize) :
    ∀ w ∈ index x sc, WritesTranslatorDest w := by
  simpa [index] using ⟨writesTranslatorDest_of_ra .mov (.inr (.inl rfl)),
    writesTranslatorDest_of_ra .scale (.inr (.inl rfl)),
    writesTranslatorDest_of_ra .add (.inl rfl)⟩

/-- Every lowering is made of the sub-sequences of 42_addressing_modes.md R101. -/
theorem loweringOf_dest (i : Instr) : ∀ w ∈ loweringOf i, WritesTranslatorDest w := by
  cases i with
  | zero | set | mov | add | scale | reqmem => exact List.forall_mem_nil _
  | dreg | areg => exact List.forall_mem_singleton.mpr (uMov_in0_dest _)
  | aind => exact fetchRef_dest _
  | absw | absl | imm => exact fetchImm_dest _
  | apost n sz =>
    simpa only [loweringOf, seqApost, List.forall_mem_append, List.forall_mem_singleton] using
      ⟨fetchRef_dest _, uAddImm_a_dest n _⟩
  | apre n sz =>
    simpa only [loweringOf, seqApre, List.forall_mem_append, List.forall_mem_singleton] using
      ⟨uAddImm_a_dest n _, fetchRef_dest _⟩
  | adisp | pcdisp => exact List.forall_mem_append.mpr ⟨base_dest _ _, fetchRef_dest _⟩
  | aidx | pcidx =>
    simpa only [loweringOf, seqAidx, seqPcidx, seqIndexed, List.forall_mem_append] using
      ⟨⟨base_dest _ _, index_dest _ _⟩, fetchRef_dest _⟩
  | amipost | pcmipost =>
    simpa only [loweringOf, seqAmipost, seqPcmipost, seqPostIndexed, List.forall_mem_append,
      List.forall_mem_singleton] using
      ⟨⟨⟨⟨base_dest _ _, fetchRef_dest _⟩, index_dest _ _⟩, uAddImm_in0_dest _⟩, fetchRef_dest _⟩
  | amipre | pcmipre =>
    simpa only [loweringOf, seqAmipre, seqPcmipre, seqPreIndexed, List.forall_mem_append,
      List.forall_mem_singleton] using
      ⟨⟨⟨⟨base_dest _ _, index_dest _ _⟩, fetchRef_dest _⟩, uAddImm_in0_dest _⟩, fetchRef_dest _⟩

/-- An emitted word that is no request names a translator's destination in RA. -/
theorem emitted_ra {w : UopWord} {op : OpCode} (h : Emitted w) (hop : w.extractLsb' 61 3 = op.bits)
    (hne : op ≠ .reqmem) : RefCode.IsTranslatorDest (uopFields w).ra := by
  obtain ⟨i, hw⟩ := h
  obtain ⟨op', u, rfl, hu⟩ := loweringOf_dest i w hw
  have hop' : op' = op := by
    rw [encodeUop_op, ← opOfBits?_eq_some, opOfBits?_bits] at hop
    exact Option.some.inj hop
  have hra := hu (hop' ▸ hne)
  have hwf : u.ra.wf = true := by
    obtain h | h | ⟨n, h⟩ := hra <;> rw [h] <;> rfl
  simpa [uopFields, RefCode.ofBits_bits hwf] using hra

/-- A write to a translator's destination leaves D0 to D7, PC, CCR and the temporaries. -/
theorem write_translatorDest_keeps {n : Nat} {lit v : Word} {r : RefCode} {c : Cell} (rf : RegFile)
    (hr : RefCode.IsTranslatorDest r) (hc : decodeRef n lit r = some (.cell c)) :
    (rf.write c v).d = rf.d ∧ (rf.write c v).pc = rf.pc ∧ (rf.write c v).ccr = rf.ccr ∧
      (rf.write c v).tmp = rf.tmp := by
  obtain rfl | rfl | ⟨k, rfl⟩ := hr <;> cases hc <;> exact ⟨rfl, rfl, rfl, rfl⟩

/-- Settles O56: the head of the queue, if it writes at all, writes a translator's destination. -/
theorem translatorOutputKeepsDataRegistersPcAndCcr :
    Obligations.TranslatorOutputKeepsDataRegistersPcAndCcr := by
  intro s t hQ he h
  cases executorEffect_of_step he h with
  | waits | faults | requests => exact ⟨rfl, rfl, rfl, rfl⟩
  | @writes w rest op c v hs hq hop hne hc =>
    have hw : Emitted w := hQ w (by simp [hq])
    exact write_translatorDest_keeps s.rf (emitted_ra hw hop hne) hc

end Sys2Proof.Machine
end

section
/-! PROOFS. The status words (10_state.md R30). -/

namespace Sys2Proof.Machine

/-! ### The fields of `STATUS`, from the low end up -/

theorem statusWord_st (s : State) : (statusWord s).extractLsb' 0 2 = s.st.code :=
  BitVec.extractLsb'_append_eq_right

/-- A field above ST: ST's two bits are skipped. -/
theorem statusWord_above_st (s : State) {lo : Nat} (len : Nat) (h : 2 ≤ lo) :
    (statusWord s).extractLsb' lo len =
      (0#16 ++ BitVec.ofNat 8 s.q.length ++ 0#1 ++ s.fcode.code ++ 0#2).extractLsb' (lo - 2) len :=
  BitVec.extractLsb'_append_eq_of_le h

theorem statusWord_reserved_low (s : State) : (statusWord s).extractLsb' 2 2 = 0#2 :=
  (statusWord_above_st s 2 le_rfl).trans BitVec.extractLsb'_append_eq_right

/-- A field above the low reserved bits. -/
theorem statusWord_above_reserved (s : State) {lo : Nat} (len : Nat) (h : 4 ≤ lo) :
    (statusWord s).extractLsb' lo len =
      (0#16 ++ BitVec.ofNat 8 s.q.length ++ 0#1 ++ s.fcode.code).extractLsb' (lo - 2 - 2) len :=
  (statusWord_above_st s len (by omega)).trans (BitVec.extractLsb'_append_eq_of_le (by omega))

theorem statusWord_fcode (s : State) : (statusWord s).extractLsb' 4 3 = s.fcode.code :=
  (statusWord_above_reserved s 3 le_rfl).trans BitVec.extractLsb'_append_eq_right

/-- A field above FCODE. -/
theorem statusWord_above_fcode (s : State) {lo : Nat} (len : Nat) (h : 7 ≤ lo) :
    (statusWord s).extractLsb' lo len =
      (0#16 ++ BitVec.ofNat 8 s.q.length ++ 0#1).extractLsb' (lo - 2 - 2 - 3) len :=
  (statusWord_above_reserved s len (by omega)).trans (BitVec.extractLsb'_append_eq_of_le (by omega))

theorem statusWord_reserved_mid (s : State) : (statusWord s).extractLsb' 7 1 = 0#1 :=
  (statusWord_above_fcode s 1 le_rfl).trans BitVec.extractLsb'_append_eq_right

/-- A field above the middle reserved bit. -/
theorem statusWord_above_mid (s : State) {lo : Nat} (len : Nat) (h : 8 ≤ lo) :
    (statusWord s).extractLsb' lo len =
      (0#16 ++ BitVec.ofNat 8 s.q.length).extractLsb' (lo - 2 - 2 - 3 - 1) len :=
  (statusWord_above_fcode s len (by omega)).trans (BitVec.extractLsb'_append_eq_of_le (by omega))

theorem statusWord_qcount (s : State) :
    (statusWord s).extractLsb' 8 8 = BitVec.ofNat 8 s.q.length :=
  (statusWord_above_mid s 8 le_rfl).trans BitVec.extractLsb'_append_eq_right

theorem statusWord_reserved_high (s : State) : (statusWord s).extractLsb' 16 16 = 0#16 :=
  (statusWord_above_mid s 16 (by omega)).trans BitVec.extractLsb'_append_eq_left

/-! ### `status_read`, by SEL -/

/-- The four values of SEL. -/
theorem sel_cases (sel : BitVec 2) : sel = 0#2 ∨ sel = 1#2 ∨ sel = 2#2 ∨ sel = 3#2 := by
  revert sel; decide

/-- `status_read` answers with the word SEL names; outside Suspended the PEND_ADDR word is free
(10_state.md R28, R30). Only the model's draw counter can change. -/
theorem State.statusRead_word (s : State) (sel : BitVec 2) :
    ∃ v k, s.statusRead sel = State.answer { s with draws := k } .ok (some v) ∧
      (sel = 0 → v = statusWord s) ∧ (sel = 1 → s.st = .suspended → v = s.pendAddr) ∧
      (sel = 2 → v = finfoLo s) ∧ (sel = 3 → v = finfoHi s) := by
  obtain rfl | rfl | rfl | rfl := sel_cases sel
  · exact ⟨statusWord s, s.draws, rfl, by simp⟩
  · by_cases hs : s.st = .suspended
    · exact ⟨s.pendAddr, s.draws, if_pos hs, by simp⟩
    · exact ⟨Config.freeWord s.draws, s.draws + 1, if_neg hs, by simp [hs]⟩
  · exact ⟨finfoLo s, s.draws, rfl, by simp⟩
  · exact ⟨finfoHi s, s.draws, rfl, by simp⟩

/-- Settles O42: the command answers with the word SEL names, and the fields of `STATUS` are read
off one by one. -/
theorem statusWordsShowTheControlState : Obligations.StatusWordsShowTheControlState := by
  intro s ts sel hc hlen
  obtain ⟨v, k, hread, hstatus, hpend, hlo, hhi⟩ := s.taken.statusRead_word sel
  refine ⟨v, k, ?_, ?_, hpend, hlo, hhi⟩
  · have hstep : step s = .next (s.taken.statusRead sel) := step_host hc
    rw [hstep, hread]
    simp [State.answer, State.taken, State.withTurns, hc]
  · intro hsel
    obtain rfl : v = statusWord s := hstatus hsel
    refine ⟨?_, statusWord_reserved_low s, ?_, statusWord_reserved_mid s, ?_,
      statusWord_reserved_high s⟩
    · rw [statusWord_st]; cases s.st <;> rfl
    · rw [statusWord_fcode]; cases s.fcode <;> rfl
    · rw [statusWord_qcount, BitVec.toNat_ofNat, Nat.mod_eq_of_lt (by omega)]

end Sys2Proof.Machine
end

section
/-! PROOFS. Memory requests: what enters Suspended and what leaves it (20_memory.md R35 to R45). -/

namespace Sys2Proof.Machine

variable {s t : State}

/-! ### Leaving Suspended -/

/-- Settles O53: from Suspended the executor's turn passes, and every command but `resume`, `fail`
and reset leaves ST, PEND_ADDR and the queue alone, or (`lower`) appends to the queue. -/
theorem suspendedIsLeftByAnAnswerAlone : Obligations.SuspendedIsLeftByAnAnswerAlone := by
  intro s t hs h
  obtain hn | he | ⟨c, ts, hc⟩ := step_turns s
  · cases (step_draws hn).symm.trans h
    exact .inl ⟨hs, rfl, [], (List.append_nil _).symm⟩
  · cases executorEffect_of_step he h with
    | waits => exact .inl ⟨hs, rfl, [], (List.append_nil _).symm⟩
    | faults hr | writes _ hr | requests hr => cases hs.symm.trans hr
  · cases hostEffect_of_step hc h with
    | answers | drawsWord | writes => exact .inl ⟨hs, rfl, [], (List.append_nil _).symm⟩
    | @lowers _ i =>
      have hst : (s.taken.enqueue (loweringOf i)).st = .suspended := by simp [State.taken, hs]
      exact .inl ⟨hst, rfl, loweringOf i, rfl⟩
    | resumes v => exact .inr (.inl ⟨v, ts, hc⟩)
    | failsFetch => exact .inr (.inr (.inl ⟨ts, hc⟩))
    | resets => exact .inr (.inr (.inr ⟨ts, hc⟩))
    | flushes hns => exact absurd hs hns
    | acknowledges hf => cases hs.symm.trans hf

/-! ### Entering Suspended -/

theorem idleOrRunning_ne_suspended (l : List UopWord) : idleOrRunning l ≠ .suspended := by
  cases l <;> simp

theorem State.enqueue_st_suspended {l : List UopWord} (h : (s.enqueue l).st = .suspended) :
    s.st = .suspended := by
  by_cases hi : s.st = .idle
  · simp [hi] at h
  · simpa [hi] using h

theorem State.discard_st_suspended (h : s.discard.st = .suspended) : s.st = .suspended := by
  by_cases hr : s.st = .running
  · simp [hr] at h
  · simpa [hr] using h

/-- No host command enters Suspended: only a request of the executor's does. -/
theorem HostEffect.not_enters_suspended {c : Command} (he : HostEffect s c t)
    (ht : t.st = .suspended) : s.st = .suspended := by
  cases he with
  | answers | drawsWord | writes => exact ht
  | @lowers _ i => exact State.enqueue_st_suspended (s := s.taken) (l := loweringOf i) ht
  | resumes _ hs | failsFetch hs => exact hs
  | flushes => exact State.discard_st_suspended (s := s.taken) ht
  | acknowledges | resets => cases ht

/-- Settles O54: no host command enters Suspended, and of what an executor's turn can do only a
REQMEM word's request does; it latches the value RA reads as. -/
theorem requestsComeFromRequestMemAlone : Obligations.RequestsComeFromRequestMemAlone := by
  intro s t hns h ht
  obtain hn | he | ⟨c, ts, hc⟩ := step_turns s
  · cases (step_draws hn).symm.trans h
    exact absurd ht hns
  · cases executorEffect_of_step he h with
    | waits => exact absurd ht hns
    | faults => cases ht
    | writes => exact absurd ht (idleOrRunning_ne_suspended _)
    | @requests w rest a hs hq hop ha =>
      refine ⟨he, hs, w, a, hq, hop, (refOfCode_eq_decodeRef ..).trans ha, ?_⟩
      cases a with
      | cell y => rfl
      | imm v => rfl
  · exact absurd ((hostEffect_of_step hc h).not_enters_suspended ht) hns

end Sys2Proof.Machine
end

section
/-! PROOFS. The encodings: the decoder and the encoder are inverse (30_encoding.md R54 to R65). -/

namespace Sys2Proof

/-! ### Micro-instruction words -/

/-- The fields beside OP and RA are read back from where R57 puts them. -/
@[simp] theorem encodeUop_fields (op : OpCode) (u : Uop) :
    (encodeUop op u).extractLsb' 49 6 = u.rb.bits ∧ (encodeUop op u).extractLsb' 47 2 = u.sz ∧
      (encodeUop op u).extractLsb' 32 15 = u.rsv ∧ (encodeUop op u).extractLsb' 0 32 = u.lit := by
  simp [encodeUop, BitVec.extractLsb'_or, extract_place_self, extract_place_ne]

/-- The operands are read back from the word, once both references are codes of R54. -/
theorem uopFields_encodeUop (op : OpCode) {u : Uop} (h : u.wf = true) :
    uopFields (encodeUop op u) = u := by
  obtain ⟨ha, hb⟩ := Bool.and_eq_true_iff.mp h
  simp [uopFields, RefCode.ofBits_bits ha, RefCode.ofBits_bits hb]

/-- A word with a valid OP decodes to that operation on its fields. -/
theorem decodeUop_of_op {w : UopWord} {op : OpCode} (h : w.extractLsb' 61 3 = op.bits) :
    decodeUop w = .ok (op.instr (uopFields w)) := by
  simp [decodeUop, h]

theorem decodeUop_encodeUop (op : OpCode) {u : Uop} (h : u.wf = true) :
    decodeUop (encodeUop op u) = .ok (op.instr u) := by
  rw [decodeUop_of_op (encodeUop_op op u), uopFields_encodeUop op h]

theorem opOfBits?_eq_none {b : BitVec 3} : opOfBits? b = none ↔ 6 ≤ b.toNat := by
  revert b; decide

/-! ### Descriptor words -/

section Fields
variable (kind : BitVec 5) (reg : BitVec 3) (sz : BitVec 2) (xa : BitVec 1) (xn : BitVec 3)
  (sc : BitVec 2) (d1 d2 : Word)

@[simp] theorem descKind_packDesc : descKind (packDesc kind reg sz xa xn sc d1 d2) = kind :=
  packDesc_kind ..

/-- The fields beside KIND are read back from where R61 puts them. -/
@[simp] theorem packDesc_fields :
    let e := packDesc kind reg sz xa xn sc d1 d2
    descReg e = regOfBits reg ∧ descSz e = sz ∧ descXA e = xa ∧ descXN e = regOfBits xn ∧
      descSc e = sc ∧ descD1 e = d1 ∧ descD2 e = d2 := by
  simp [descReg, descSz, descXA, descXN, descSc, descD1, descD2, packDesc, BitVec.extractLsb'_or,
    extract_place_self, extract_place_ne]

@[simp] theorem descIndex_packDesc (x : IndexReg) :
    descIndex (packDesc kind reg sz x.xa x.xn sc d1 d2) = x := by
  simp only [descIndex, packDesc_fields, x.index_of_fields]

@[simp] theorem withSize_packDesc (s : OperandSize) (k : OperandSize → Instr) :
    withSize (packDesc kind reg s.code xa xn sc d1 d2) k = .ok (k s) := by
  simp [withSize]

@[simp] theorem withScale_packDesc (s : OperandSize) (k : OperandSize → Instr) :
    withScale (packDesc kind reg sz xa xn s.code d1 d2) k = .ok (k s) := by
  simp [withScale]

end Fields

/-- Settles O2: a micro-operation by the fields of its word, a descriptor kind by kind. -/
theorem wellFormedInstructionsRoundTrip : Obligations.WellFormedInstructionsRoundTrip := by
  intro i h
  cases i with
  | zero u => exact decodeUop_encodeUop .zero h
  | set u => exact decodeUop_encodeUop .set h
  | mov u => exact decodeUop_encodeUop .mov h
  | add u => exact decodeUop_encodeUop .add h
  | scale u => exact decodeUop_encodeUop .scale h
  | reqmem u => exact decodeUop_encodeUop .reqmem h
  | dreg | areg | aind | adisp | pcdisp | absw | absl | imm =>
    simp [encode, decode, packPlain, decodeDesc]
  | apost | apre => simp [encode, decode, decodeDesc]
  | aidx | amipost | amipre | pcidx | pcmipost | pcmipre =>
    simp [encode, decode, packIndexed, decodeDesc]

/-- Settles O3: the operation by OP, the fields by the encoder's inverse. -/
theorem uopWordsDecodeByTheirFields : Obligations.UopWordsDecodeByTheirFields := by
  refine fun w => ⟨fun op h => ?_, fun h => ?_⟩
  · have hop : w.extractLsb' 61 3 = op.bits :=
      BitVec.eq_of_toNat_eq (h.trans (by cases op <;> rfl))
    exact ⟨uopFields w, decodeUop_of_op hop, RefCode.bits_ofBits _, RefCode.bits_ofBits _, rfl, rfl,
      rfl, encodeUop_uopFields hop⟩
  · simp [decodeUop, opOfBits?_eq_none.mpr h]

/-- Settles O4: the table on bits and the decoder's are one reading. -/
theorem referenceCodesResolveByTheTable : Obligations.ReferenceCodesResolveByTheTable :=
  fun n lit c => (Machine.refOfCode_eq_decodeRef n lit c).symm

/-- Settles O1: each word is decoded by evaluation. -/
theorem specWordsDecodeAsListed : Obligations.SpecWordsDecodeAsListed :=
  ⟨rfl, rfl, rfl, rfl, rfl, rfl, rfl, rfl, rfl⟩

/-- Settles O5: each code is looked up. -/
theorem sizeCodesShiftAndCount : Obligations.SizeCodesShiftAndCount :=
  ⟨rfl, rfl, rfl, rfl, rfl, rfl, rfl, rfl, rfl, rfl⟩

end Sys2Proof
end

section
/-! PROOFS. Which descriptors the decoder rejects, and which bits of a descriptor it looks at
(30_encoding.md R62, R63). -/

namespace Sys2Proof

open Machine (kindOf usedMask reservedDesc)

/-! ### Reserved descriptors -/

theorem OperandSize.ofCode?_eq_some {c : BitVec 2} {sz : OperandSize} :
    OperandSize.ofCode? c = some sz ↔ c = sz.code := by
  cases sz <;> (revert c; decide)

theorem withSize_eq_error {e : DescWord} {k : OperandSize → Instr} :
    (∃ r, withSize e k = .error r) ↔ descSz e = 3#2 := by
  rw [← OperandSize.ofCode?_eq_none]
  cases h : OperandSize.ofCode? (descSz e) <;> simp [withSize, h]

theorem withScale_eq_error {e : DescWord} {k : OperandSize → Instr} :
    (∃ r, withScale e k = .error r) ↔ descSc e = 3#2 := by
  rw [← OperandSize.ofCode?_eq_none]
  cases h : OperandSize.ofCode? (descSc e) <;> simp [withScale, h]

/-- R63's reserved descriptors, in the decoder's fields. -/
theorem reservedDesc_iff (e : DescWord) :
    reservedDesc e ↔ 16 ≤ (descKind e).toNat ∨
      ((descKind e).toNat ∈ [3, 4] ∧ descSz e = 3#2) ∨
        ((descKind e).toNat ∈ [6, 7, 8, 10, 11, 12] ∧ descSc e = 3#2) := Iff.rfl

/-- The decoder rejects exactly the reserved descriptors (30_encoding.md R63). -/
theorem decodeDesc_eq_error {e : DescWord} :
    (∃ r, decodeDesc e = .error r) ↔ reservedDesc e := by
  rw [reservedDesc_iff]
  simp only [decodeDesc]
  split
  case h_4 hk | h_5 hk => simp [hk, withSize_eq_error]
  case h_7 hk | h_8 hk | h_9 hk | h_11 hk | h_12 hk | h_13 hk => simp [hk, withScale_eq_error]
  case h_17 => exact iff_of_true ⟨_, rfl⟩ (.inl (by simp only [imp_false] at *; omega))
  all_goals simp [*]

/-! ### Unused fields -/

/-- A field put back where it came from gives the word's own bits there, and 0 elsewhere. -/
theorem place_extract_getLsbD {n lo k i : Nat} (w : BitVec n) (hi : i < n) :
    (place n lo (w.extractLsb' lo k)).getLsbD i =
      (w.getLsbD i && decide (lo ≤ i ∧ i < lo + k)) := by
  rw [place_getLsbD, BitVec.getLsbD_extractLsb']
  by_cases h : lo ≤ i
  · have hk : i - lo < k ↔ i < lo + k := by omega
    simp [h, hi, hk, Nat.add_sub_cancel' h, Bool.and_comm]
  · simp [h]

/-- A descriptor word is made of its fields: every bit below 80 lies in one of them. -/
theorem packDesc_fields_eq (e : DescWord) :
    packDesc (descKind e) (regBits (descReg e)) (descSz e) (descXA e) (regBits (descXN e))
      (descSc e) (descD1 e) (descD2 e) = e := by
  apply BitVec.eq_of_getLsbD_eq
  intro i hi
  simp only [packDesc, descKind, descReg, descSz, descXA, descXN, descSc, descD1, descD2,
    regBits_regOfBits, BitVec.getLsbD_or, place_extract_getLsbD _ hi]
  cases e.getLsbD i with
  | false => simp
  | true =>
    simp only [Bool.true_and, ← Bool.decide_or, decide_eq_true_eq]
    omega

/-- The conjunction of two words, field by field. -/
theorem and_eq_packDesc (e m : DescWord) :
    e &&& m = packDesc (descKind e &&& descKind m) (regBits (descReg e) &&& regBits (descReg m))
      (descSz e &&& descSz m) (descXA e &&& descXA m) (regBits (descXN e) &&& regBits (descXN m))
      (descSc e &&& descSc m) (descD1 e &&& descD1 m) (descD2 e &&& descD2 m) := by
  rw [← packDesc_fields_eq (e &&& m)]
  simp only [descKind, descReg, descSz, descXA, descXN, descSc, descD1, descD2, regBits_regOfBits,
    BitVec.extractLsb'_and]

/-- The mask of a kind covers KIND and the fields R62 names for it. -/
theorem usedMask_eq_packDesc {k : Nat} (hk : k ≤ 15) :
    usedMask k = packDesc (BitVec.allOnes 5) (if k ≤ 8 then BitVec.allOnes 3 else 0)
      (if k ∈ [3, 4] then BitVec.allOnes 2 else 0)
      (if k ∈ [6, 7, 8, 10, 11, 12] then BitVec.allOnes 1 else 0)
      (if k ∈ [6, 7, 8, 10, 11, 12] then BitVec.allOnes 3 else 0)
      (if k ∈ [6, 7, 8, 10, 11, 12] then BitVec.allOnes 2 else 0)
      (if 5 ≤ k then BitVec.allOnes 32 else 0)
      (if k ∈ [7, 8, 11, 12] then BitVec.allOnes 32 else 0) := by
  interval_cases k <;> decide

theorem and_ite_allOnes {n : Nat} (f : BitVec n) (p : Prop) [Decidable p] :
    (f &&& if p then BitVec.allOnes n else 0) = if p then f else 0 := by
  split <;> simp

/-- Under the mask of kind `k` the fields `k` uses stay and the others are 0. -/
theorem and_usedMask {e : DescWord} {k : Nat} (he : kindOf e = k) (hk : k ≤ 15) :
    e &&& usedMask k =
      packDesc (BitVec.ofNat 5 k) (if k ≤ 8 then regBits (descReg e) else 0)
        (if k ∈ [3, 4] then descSz e else 0)
        (if k ∈ [6, 7, 8, 10, 11, 12] then descXA e else 0)
        (if k ∈ [6, 7, 8, 10, 11, 12] then regBits (descXN e) else 0)
        (if k ∈ [6, 7, 8, 10, 11, 12] then descSc e else 0)
        (if 5 ≤ k then descD1 e else 0) (if k ∈ [7, 8, 11, 12] then descD2 e else 0) := by
  have hkind : descKind e = BitVec.ofNat 5 k :=
    BitVec.eq_of_toNat_eq (he.trans (Nat.mod_eq_of_lt (by omega)).symm)
  rw [usedMask_eq_packDesc hk, and_eq_packDesc, hkind]
  simp only [descKind_packDesc, packDesc_fields, regBits_regOfBits, and_ite_allOnes,
    BitVec.and_allOnes]

@[simp] theorem IndexReg.fields_descIndex (e : DescWord) :
    (descIndex e).xa = descXA e ∧ (descIndex e).xn = regBits (descXN e) := by
  obtain h | h := BitVec.eq_zero_or_eq_one (descXA e) <;>
    simp [descIndex, h, IndexReg.xa, IndexReg.xn]

/-- The encoder writes the fields a kind uses as they were read, and 0 in the others. -/
theorem encode_of_decodeDesc {e : DescWord} {i : Instr} (h : decodeDesc e = .ok i) :
    encode i = .desc (e &&& usedMask (kindOf e)) := by
  simp only [decodeDesc] at h
  split at h
  case h_17 => cases h
  case h_4 hk | h_5 hk =>
    obtain ⟨sz, hsz, rfl⟩ := withSize_ok h
    rw [show kindOf e = _ from hk, and_usedMask hk (by decide)]
    simp [encode, OperandSize.ofCode?_eq_some.mp hsz]
  case h_7 hk | h_8 hk | h_9 hk | h_11 hk | h_12 hk | h_13 hk =>
    obtain ⟨sc, hsc, rfl⟩ := withScale_ok h
    rw [show kindOf e = _ from hk, and_usedMask hk (by decide)]
    simp [encode, packIndexed, OperandSize.ofCode?_eq_some.mp hsc]
  case h_1 hk | h_2 hk | h_3 hk | h_6 hk | h_10 hk | h_14 hk | h_15 hk | h_16 hk =>
    cases h
    rw [show kindOf e = _ from hk, and_usedMask hk (by decide)]
    simp [encode, packPlain]

/-- The decoder sees the fields the kind uses alone. -/
theorem decodeDesc_and_usedMask {e : DescWord} {k : Nat} (he : kindOf e = k) (hk : k ≤ 15) :
    decodeDesc (e &&& usedMask k) = decodeDesc e := by
  have hkind : (descKind e).toNat = k := he
  rw [and_usedMask he hk]
  interval_cases k <;> simp [decodeDesc, hkind, withSize, withScale, descIndex]

/-- Every mask keeps KIND. -/
theorem kindOf_and_usedMask (e : DescWord) {k : Nat} (hk : k ≤ 15) :
    kindOf (e &&& usedMask k) = kindOf e := by
  change (descKind _).toNat = (descKind e).toNat
  rw [and_eq_packDesc, descKind_packDesc, usedMask_eq_packDesc hk, descKind_packDesc,
    BitVec.and_allOnes]

theorem kindOf_le_of_decodeDesc {e : DescWord} {i : Instr} (h : decodeDesc e = .ok i) :
    kindOf e ≤ 15 := by
  by_contra hk
  obtain ⟨r, hr⟩ := decodeDesc_eq_error.mpr (.inl (Nat.lt_of_not_le hk))
  cases hr.symm.trans h

/-- Settles O7: equal words under the mask are of one kind, and the decoder sees only what the mask
of its kind keeps. -/
theorem unusedDescriptorBitsAreIgnored : Obligations.UnusedDescriptorBitsAreIgnored := by
  refine fun e i h => ⟨encode_of_decodeDesc h, fun e' he => ?_⟩
  have hk := kindOf_le_of_decodeDesc h
  have hkind : kindOf e' = kindOf e := by
    rw [← kindOf_and_usedMask e' hk, he, kindOf_and_usedMask e hk]
  rw [← decodeDesc_and_usedMask hkind hk, he, decodeDesc_and_usedMask rfl hk, h]

end Sys2Proof

namespace Sys2Proof.Machine

/-- Settles O6: the decoder's rejections are the reserved descriptors, and `lower` of any other
appends or does not fit. -/
theorem lowerRejectsReservedDescriptorsExactly :
    Obligations.LowerRejectsReservedDescriptorsExactly := by
  refine fun s e ts hts hs => ⟨fun hr => ?_, fun hr => ?_⟩
  · obtain ⟨r, hd⟩ := decodeDesc_eq_error.mpr hr
    rw [step_lower_error hts hd, if_neg hs]
    simp [State.taken, State.withTurns, State.answer, refusal, hts]
  · cases hd : decodeDesc e with
    | error r => exact absurd (decodeDesc_eq_error.mp ⟨r, hd⟩) hr
    | ok i =>
      refine ⟨_, step_lower_ok hts hd, ?_⟩
      obtain ⟨hf, -⟩ | ⟨-, -, ha⟩ | ⟨-, -, ha⟩ := s.taken.append_cases (loweringOf i)
      · exact absurd hf hs
      · exact .inr (congrArg State.reply ha)
      · exact .inl (congrArg State.reply ha)

end Sys2Proof.Machine
end

section
/-! PROOFS. The register file and the host's port to it (40_register_file.md R69, R70, R72, R76). -/

namespace Sys2Proof.Machine

/-! ### Writing a cell and reading it back -/

theorem ccrRead_toNat (b : BitVec 8) : (ccrRead b).toNat = b.toNat :=
  BitVec.toNat_setWidth_of_le (by decide)

/-- Through CCR a value keeps its low byte (40_register_file.md R72). -/
theorem ccrRead_ccrWrite (v : Word) : ccrRead (ccrWrite v) = v &&& 0xFF#32 :=
  BitVec.eq_of_toNat_eq <| by
    rw [ccrRead_toNat, ccrWrite, BitVec.toNat_setWidth, BitVec.toNat_and]
    exact (Nat.and_two_pow_sub_one_eq_mod v.toNat 8).symm

theorem RegFile.read_write_storedAs (rf : RegFile) {c : Cell} (v : Word)
    (h : c.present rf.tmp.length = true) : (rf.write c v).read c = storedAs c v := by
  rw [rf.read_write_self c v h, ccrRead_ccrWrite, storedAs]

/-- Settles O18: CCR's two ports are a truncation and a zero-extension. -/
theorem ccrExtendsAndTruncates : Obligations.CcrExtendsAndTruncates :=
  fun rf v => ⟨BitVec.setWidth_eq_extractLsb' (by decide : 8 ≤ 32),
    ccrRead_toNat rf.ccr, ccrRead_ccrWrite 0x000001FF⟩

/-- Settles O19: the cell reads what is stored, every other cell as before. -/
theorem writeChangesExactlyOneCell : Obligations.WriteChangesExactlyOneCell :=
  fun rf c v h =>
    ⟨rf.read_write_storedAs v h, fun x => rf.read_write_ne c x v, rf.write_tmp_length c v⟩

/-! ### `host_read` and `host_write` -/

theorem State.taken_eq {s : State} {u : Turn} {ts : List Turn} (h : s.turns = u :: ts) :
    s.taken = { s with turns := ts } := by
  rw [taken, h]; rfl

/-- The cell the host's code names is the one the table gives it (30_encoding.md R54, R55). -/
theorem storageCell?_ofBits_eq_some {n : Nat} {c : BitVec 6} {x : Cell} :
    storageCell? n (RefCode.ofBits c) = some x ↔ refOfCode n 0 c = some (.cell x) := by
  rw [storageCell?_eq_some, refOfCode_eq_decodeRef]

theorem storageCell?_ofBits_eq_none {n : Nat} {c : BitVec 6} :
    storageCell? n (RefCode.ofBits c) = none ↔ ∀ x, refOfCode n 0 c ≠ some (.cell x) := by
  simp only [Option.eq_none_iff_forall_ne_some, ne_eq, storageCell?_ofBits_eq_some]

theorem refOfCode_present {n : Nat} {lit : Word} {c : BitVec 6} {x : Cell}
    (h : refOfCode n lit c = some (.cell x)) : x.present n = true :=
  decodeRef_present ((refOfCode_eq_decodeRef n lit c).symm.trans h)

section HostPort
variable {s : State} {c : BitVec 6} {x : Cell}

theorem State.hostRead_cell (h : refOfCode s.nTmp 0 c = some (.cell x)) :
    s.hostRead c = s.answer .ok (some (s.rf.read x)) := by
  rw [hostRead, storageCell?_ofBits_eq_some.mpr h]

theorem State.hostRead_badRef (h : ∀ x, refOfCode s.nTmp 0 c ≠ some (.cell x)) :
    s.hostRead c = s.answer .badRef := by
  rw [hostRead, storageCell?_ofBits_eq_none.mpr h]

theorem State.hostWrite_cell (v : Word) (h : refOfCode s.nTmp 0 c = some (.cell x))
    (hs : s.st ≠ .running) : s.hostWrite c v = (s.write x v).answer .ok := by
  simp only [hostWrite, storageCell?_ofBits_eq_some.mpr h, if_neg hs]

theorem State.hostWrite_busy (v : Word) (h : refOfCode s.nTmp 0 c = some (.cell x))
    (hs : s.st = .running) : s.hostWrite c v = s.answer .busy := by
  simp only [hostWrite, storageCell?_ofBits_eq_some.mpr h, if_pos hs]

theorem State.hostWrite_badRef (v : Word) (h : ∀ x, refOfCode s.nTmp 0 c ≠ some (.cell x)) :
    s.hostWrite c v = s.answer .badRef := by
  rw [hostWrite, storageCell?_ofBits_eq_none.mpr h]

end HostPort

/-- Settles O41: each command by what its code names; `host_write` of a cell also by ST. -/
theorem hostPortReadsAndWritesCells : Obligations.HostPortReadsAndWritesCells := by
  refine fun s ts c => ⟨fun hc => ?_, fun v hc => ?_⟩
  · have hstep : step s = .next (State.hostRead { s with turns := ts } c) :=
      State.taken_eq hc ▸ step_host hc
    exact ⟨fun x hx => hstep.trans (congrArg _ (State.hostRead_cell hx)),
      fun hx => hstep.trans (congrArg _ (State.hostRead_badRef hx))⟩
  · have hstep : step s = .next (State.hostWrite { s with turns := ts } c v) :=
      State.taken_eq hc ▸ step_host hc
    refine ⟨fun x hx hs => ?_,
      fun x hx hs => hstep.trans (congrArg _ (State.hostWrite_busy v hx hs)),
      fun hx => hstep.trans (congrArg _ (State.hostWrite_badRef v hx))⟩
    have hframe : CellsButUnchanged x s (s.write x v) :=
      ⟨fun y => s.rf.read_write_ne x y v, s.write_nTmp x v⟩
    exact ⟨_, hstep.trans (congrArg _ (State.hostWrite_cell v hx hs)),
      s.rf.read_write_storedAs v (refOfCode_present hx), hframe, rfl⟩

end Sys2Proof.Machine
end

section
/-! PROOFS. The host's answers and its queue commands (41_micro_instructions.md R93 to R96). -/

namespace Sys2Proof.Machine

section
variable {s : State} {ts : List Turn}

theorem step_resume {v : Word} (hc : s.turns = .host (.resume v) :: ts) :
    step s = .next (State.resume { s with turns := ts } v) := State.taken_eq hc ▸ step_host hc

theorem step_fail (hc : s.turns = .host .fail :: ts) :
    step s = .next (State.failFetch { s with turns := ts }) := State.taken_eq hc ▸ step_host hc

theorem step_flush (hc : s.turns = .host .flush :: ts) :
    step s = .next (State.flush { s with turns := ts }) := State.taken_eq hc ▸ step_host hc

theorem step_ackFault (hc : s.turns = .host .ackFault :: ts) :
    step s = .next (State.ackFault { s with turns := ts }) := State.taken_eq hc ▸ step_host hc

end

/-- Settles O37, by whether ST is Suspended. -/
theorem resumeStoresTheAnswerAndGoesOn : Obligations.ResumeStoresTheAnswerAndGoesOn := by
  refine fun s v ts hc => ⟨fun hs => ?_, fun hs => ?_⟩
  · rw [step_resume hc, ← idleOrRunning_eq]
    exact congrArg _ (State.resume_suspended v hs)
  · exact (step_resume hc).trans (congrArg _ (State.resume_other v hs))

/-- Settles O38, by whether ST is Suspended. -/
theorem failAbortsWithFetchFail : Obligations.FailAbortsWithFetchFail := fun _ _ hc =>
  ⟨fun hs => (step_fail hc).trans (congrArg _ (State.failFetch_suspended hs)),
    fun hs => (step_fail hc).trans (congrArg _ (State.failFetch_other hs))⟩

/-- Settles O39, by whether ST is Suspended. -/
theorem flushDiscardsTheQueue : Obligations.FlushDiscardsTheQueue := fun _ _ hc =>
  ⟨fun hs => (step_flush hc).trans (congrArg _ (State.flush_suspended hs)),
    fun hs => (step_flush hc).trans (congrArg _ (State.flush_other hs))⟩

/-- Settles O40, by whether ST is Faulted. -/
theorem ackFaultClearsAndIdles : Obligations.AckFaultClearsAndIdles := fun _ _ hc =>
  ⟨fun hs => (step_ackFault hc).trans (congrArg _ (State.ackFault_faulted hs)),
    fun hs => (step_ackFault hc).trans (congrArg _ (State.ackFault_other hs))⟩

end Sys2Proof.Machine
end

section
/-! PROOFS. Turns (41_micro_instructions.md R87 to R89): under the invariant a step is a next state,
takes exactly one turn off the list, and the executor's turn comes again. -/

namespace Sys2Proof.Machine

variable {s t : State}

/-! ### One step -/

/-- Settles O8: the executor's turn in Running, at a head word that decodes. -/
theorem stepRunsTheHeadWord : Obligations.StepRunsTheHeadWord := by
  intro s w rest i he hs hq hd
  rw [step_executor_runs he hs hq, hd]
  rfl

/-- Settles O10: outside Running the executor's turn passes. -/
theorem executorWaitsOutsideRunning : Obligations.ExecutorWaitsOutsideRunning :=
  fun _ => step_executor_waits

/-- However a micro-operation ends (fault entry, a write, a request), it ends in a next state. -/
theorem exec_uop_next (op : OpCode) (u : Uop) (s : State) : ∃ t, exec (op.instr u) s = .next t := by
  obtain ⟨f, -, hx⟩ | ⟨-, c, v, -, hx⟩ | ⟨-, a, -, hx⟩ := exec_uop_cases op u s <;> exact ⟨_, hx⟩

/-- The executor's turn stops only in Running with an empty queue. -/
theorem step_executor_next (he : s.executorNext) (hq : s.st = .running → s.q ≠ []) :
    ∃ t, step s = .next t := by
  by_cases hs : s.st = .running
  · obtain ⟨w, rest, hw⟩ := List.exists_cons_of_ne_nil (hq hs)
    rw [step_executor_runs he hs hw]
    cases hd : decodeUop w with
    | error r => exact ⟨_, rfl⟩
    | ok i =>
      obtain ⟨op, -, rfl⟩ := decodeUop_eq_ok hd
      exact exec_uop_next op (uopFields w) _
  · exact ⟨_, step_executor_waits he hs⟩

/-- The host's turn never stops. -/
theorem step_host_next {c : Command} {ts : List Turn} (hc : s.turns = .host c :: ts) :
    ∃ t, step s = .next t := by
  cases c with
  | lower e =>
    cases hd : decodeDesc e with
    | ok i => exact ⟨_, step_lower_ok hc hd⟩
    | error r => exact ⟨_, step_lower_error hc hd⟩
  | resume | fail | flush | ackFault | hostRead | hostWrite | statusRead | reset =>
    exact ⟨_, step_host hc⟩

/-- Settles O48: only the executor's turn in Running with an empty queue stops, and the invariant
excludes it (10_state.md R27). -/
theorem theMachineNeverStops : Obligations.TheMachineNeverStops := by
  intro s hI
  obtain hn | he | ⟨c, ts, hc⟩ := step_turns s
  · exact ⟨_, step_draws hn⟩
  · exact step_executor_next he hI.control.runNonempty
  · exact step_host_next hc

/-! ### The list of turns -/

/-- A step takes the first turn off the list and adds none. -/
theorem step_takes_turn {a : Turn} {ts : List Turn} (ha : s.turns = a :: ts)
    (h : step s = .next t) : t.turns = ts := by
  have htail : t.turns = s.turns.tail := by
    cases a with
    | executor => cases executorEffect_of_step ⟨ts, ha⟩ h <;> rfl
    | host c => cases hostEffect_of_step ha h <;> rfl
  rw [htail, ha, List.tail_cons]

/-! ### Runs -/

theorem runSteps_succ (k : Nat) (h : step s = .next t) : runSteps (k + 1) s = runSteps k t := by
  simp only [runSteps, h]

theorem runSteps_add {k : Nat} (m : Nat) (h : runSteps k s = .next t) :
    runSteps (m + k) s = runSteps m t := by
  induction k generalizing s with
  | zero => cases h; rfl
  | succ k ih =>
    cases hs : step s with
    | next x =>
      rw [runSteps_succ k hs] at h
      exact (runSteps_succ (m + k) hs).trans (ih h)
    | fault f => simp [runSteps, hs] at h
    | refused r => simp [runSteps, hs] at h

/-- Turns at the front of the list are taken one a step, and the invariant is kept. -/
theorem runSteps_takes_turns (ts us : List Turn) (hI : Inv s) (h : s.turns = ts ++ us) :
    ∃ t, runSteps ts.length s = .next t ∧ t.turns = us ∧ Inv t := by
  induction ts generalizing s with
  | nil => exact ⟨s, rfl, h, hI⟩
  | cons a ts ih =>
    obtain ⟨x, hx⟩ := theMachineNeverStops s hI
    obtain ⟨t, hrun, ht⟩ := ih (everyStepKeepsTheInvariant s x hI hx) (step_takes_turn h hx)
    exact ⟨t, (runSteps_succ _ hx).trans hrun, ht⟩

/-- Settles O49, by induction on the turns at the front of the list. -/
theorem everyInterleavingRuns : Obligations.EveryInterleavingRuns := by
  intro ts us s hI h
  obtain ⟨t, hrun, hus, -⟩ := runSteps_takes_turns ts us hI h
  exact ⟨t, hrun, hus⟩

/-- With no turn chosen, finitely many commands are drawn, and then the executor is next. -/
theorem draws_then_executor (hI : Inv s) (h : s.turns = []) :
    ∃ k t, runSteps (k + 1) s = .next t ∧ t.executorNext ∧ Inv t := by
  obtain ⟨t, ht, hnext, hIt⟩ := runSteps_takes_turns _ [.executor] hI.drawTurns s.drawTurns_turns
  exact ⟨_, t, (runSteps_succ _ (step_draws h)).trans ht, ⟨[], hnext⟩, hIt⟩

/-- Settles O50: the turns on the list run out, then a burst of commands is drawn, and after it the
executor is next. -/
theorem theExecutorIsWeaklyFair : Obligations.TheExecutorIsWeaklyFair := by
  refine ⟨fun s hI => ?_, fun s => step_draws⟩
  obtain ⟨x, hx, hnil, hIx⟩ := runSteps_takes_turns s.turns [] hI (List.append_nil _).symm
  obtain ⟨k, t, ht, hnext, hIt⟩ := draws_then_executor hIx hnil
  refine ⟨k + s.turns.length, t, ?_, hnext, hIt⟩
  rw [Nat.add_right_comm]
  exact (runSteps_add _ hx).trans ht

end Sys2Proof.Machine
end

section
/-! PROOFS. The faults of a micro-instruction word, which are those of `checkUop`
(41_micro_instructions.md R78), and the six micro-operations (R81 to R86). -/

namespace Sys2Proof

theorem OperandSize.exists_ofCode? {c : BitVec 2} (h : c ≠ 3#2) :
    ∃ sz, OperandSize.ofCode? c = some sz :=
  Option.ne_none_iff_exists'.mp (mt OperandSize.ofCode?_eq_none.mp h)

theorem RefCode.ofBits_eq_imm {c : BitVec 6} : RefCode.ofBits c = .imm ↔ c = 0x30#6 := by
  revert c; decide

end Sys2Proof

namespace Sys2Proof.Machine

@[simp] theorem decodeRef_immCode (n : Nat) (lit : Word) :
    decodeRef n lit .imm = some (.imm lit) := rfl

theorem cell_of_not_imm {n : Nat} {lit : Word} {r : RefCode} (h : decodeRef n lit r ≠ none)
    (himm : r ≠ .imm) : ∃ c, decodeRef n lit r = some (.cell c) := by
  obtain ⟨o, ho⟩ := Option.ne_none_iff_exists'.mp h
  cases o with
  | cell c => exact ⟨c, ho⟩
  | imm v => exact absurd (decodeRef_imm ho).left himm

theorem idleOrRunning_ne_faulted (l : List UopWord) : idleOrRunning l ≠ .faulted := by
  cases l <;> simp

/-- `checkUop` (R78) on decoded fields: the first fault in its order, or none. -/
def uopFault (nTmp : Nat) (op : OpCode) (u : Uop) : Option FaultCode :=
  if op = .scale ∧ u.sz = 3#2 then some .badUop
  else if decodeRef nTmp u.lit u.ra = none then some .badRef
  else if (op = .mov ∨ op = .add) ∧ decodeRef nTmp u.lit u.rb = none then some .badRef
  else if op ≠ .reqmem ∧ u.ra = .imm then some .immWrite
  else none

/-- With OP 000 to 101 the check on the word's bits is the check on its fields. -/
theorem checkUop_eq_uopFault (n : Nat) {w : UopWord} {op : OpCode}
    (hop : w.extractLsb' 61 3 = op.bits) : checkUop n w = uopFault n op (uopFields w) := by
  simp only [checkUop, uopFault, uopFields, hop, refOfCode_eq_decodeRef, RefCode.ofBits_eq_imm]
  cases op <;> simp [OpCode.bits]

/-- OP 110 and 111 fail the check first. -/
theorem checkUop_of_reservedOp (n : Nat) {w : UopWord} (h : 6 ≤ (w.extractLsb' 61 3).toNat) :
    checkUop n w = some .badUop := by
  have hop : (w.extractLsb' 61 3).toNat = 6 ∨ (w.extractLsb' 61 3).toNat = 7 := by
    have := (w.extractLsb' 61 3).isLt
    omega
  simp only [checkUop, if_pos hop]

section
variable {s : State} {op : OpCode} {u : Uop}

theorem operand_badRef {c : RefCode} (h : decodeRef s.nTmp u.lit c = none) :
    s.operand u c = .error .badRef := by
  rw [State.operand, h]

theorem scaleSize_error (h : u.sz = 3#2) : scaleSize u = .error .badUop := by
  rw [scaleSize, OperandSize.ofCode?_eq_none.mpr h]

theorem scaleSize_ok (h : u.sz ≠ 3#2) : ∃ sz, scaleSize u = .ok sz := by
  obtain ⟨sz, hs⟩ := OperandSize.exists_ofCode? h
  exact ⟨sz, by rw [scaleSize, hs]⟩

theorem exec_scale_badUop (h : u.sz = 3#2) :
    exec (.scale u) s = .next (s.faultEntry .badUop (encodeUop .scale u)) := by
  simp [exec, execScale, scaleSize_error h, complete, bind, Except.bind]

theorem exec_badRef_ra (hsz : ¬(op = .scale ∧ u.sz = 3#2))
    (h : decodeRef s.nTmp u.lit u.ra = none) :
    exec (op.instr u) s = .next (s.faultEntry .badRef (encodeUop op u)) := by
  have hra := operand_badRef h
  cases op with
  | scale =>
    obtain ⟨sz, hs⟩ := scaleSize_ok fun hs => hsz ⟨rfl, hs⟩
    simp [OpCode.instr, exec, execScale, hs, hra, complete, bind, Except.bind]
  | zero | set | mov | add | reqmem =>
    simp [OpCode.instr, exec, execZero, execSet, execMov, execAdd, execReqmem, hra, complete, bind,
      Except.bind]

theorem exec_badRef_rb (hop : op = .mov ∨ op = .add) (hra : decodeRef s.nTmp u.lit u.ra ≠ none)
    (hrb : decodeRef s.nTmp u.lit u.rb = none) :
    exec (op.instr u) s = .next (s.faultEntry .badRef (encodeUop op u)) := by
  obtain ⟨o, hra⟩ := Option.ne_none_iff_exists'.mp hra
  obtain rfl | rfl := hop <;>
    simp [OpCode.instr, exec, execMov, execAdd, operand_ok.mpr hra, operand_badRef hrb, complete,
      bind, Except.bind]

theorem exec_immWrite (hsz : ¬(op = .scale ∧ u.sz = 3#2))
    (hrb : ¬((op = .mov ∨ op = .add) ∧ decodeRef s.nTmp u.lit u.rb = none)) (hne : op ≠ .reqmem)
    (himm : u.ra = .imm) :
    exec (op.instr u) s = .next (s.faultEntry .immWrite (encodeUop op u)) := by
  have hra : s.operand u u.ra = .ok (.imm u.lit) := operand_ok.mpr (himm ▸ rfl)
  cases op with
  | scale =>
    obtain ⟨sz, hs⟩ := scaleSize_ok fun hs => hsz ⟨rfl, hs⟩
    simp [OpCode.instr, exec, execScale, hs, hra, Operand.writable, complete, bind, Except.bind]
  | mov | add =>
    obtain ⟨x, hx⟩ := Option.ne_none_iff_exists'.mp fun hx => hrb ⟨by simp, hx⟩
    simp [OpCode.instr, exec, execMov, execAdd, hra, operand_ok.mpr hx, Operand.writable, complete,
      bind, Except.bind]
  | zero | set =>
    simp [OpCode.instr, exec, execZero, execSet, hra, Operand.writable, complete, bind, Except.bind]
  | reqmem => exact absurd rfl hne

/-- A word that fails the check enters that fault, with the whole word in FINFO. -/
theorem exec_of_uopFault {f : FaultCode} (h : uopFault s.nTmp op u = some f) :
    exec (op.instr u) s = .next (s.faultEntry f (encodeUop op u)) := by
  unfold uopFault at h
  split_ifs at h with hsz hra hrb himm <;> obtain rfl := Option.some.inj h
  · obtain ⟨rfl, hsz⟩ := hsz
    exact exec_scale_badUop hsz
  · exact exec_badRef_ra hsz hra
  · exact exec_badRef_rb hrb.left hra hrb.right
  · exact exec_immWrite hsz hrb himm.left himm.right

/-- What a word that passes the check has. -/
theorem uopFault_eq_none {n : Nat} : uopFault n op u = none ↔
    ¬(op = .scale ∧ u.sz = 3#2) ∧ decodeRef n u.lit u.ra ≠ none ∧
      ¬((op = .mov ∨ op = .add) ∧ decodeRef n u.lit u.rb = none) ∧
        ¬(op ≠ .reqmem ∧ u.ra = .imm) := by
  unfold uopFault
  split_ifs <;> simp_all

/-- A word that passes the check completes: it writes the cell RA names and goes on, or suspends. -/
theorem exec_of_uopFault_none (h : uopFault s.nTmp op u = none) :
    (∃ c v, exec (op.instr u) s = .next (s.write c v).proceed) ∨
      ∃ a, exec (op.instr u) s = .next (s.suspend a) := by
  obtain ⟨hsz, hra, hrb, himm⟩ := uopFault_eq_none.mp h
  by_cases hne : op = .reqmem
  · subst hne
    obtain ⟨o, ho⟩ := Option.ne_none_iff_exists'.mp hra
    exact .inr ⟨_, execReqmem_next ho⟩
  · obtain ⟨c, hc⟩ := cell_of_not_imm hra fun hi => himm ⟨hne, hi⟩
    refine .inl ⟨c, ?_⟩
    cases op with
    | zero => exact ⟨_, execZero_next hc⟩
    | set => exact ⟨_, execSet_next hc⟩
    | mov =>
      obtain ⟨x, hx⟩ := Option.ne_none_iff_exists'.mp fun hx => hrb ⟨.inl rfl, hx⟩
      exact ⟨_, execMov_next hc hx⟩
    | add =>
      obtain ⟨x, hx⟩ := Option.ne_none_iff_exists'.mp fun hx => hrb ⟨.inr rfl, hx⟩
      exact ⟨_, execAdd_next hc hx⟩
    | scale =>
      obtain ⟨sz, hs⟩ := OperandSize.exists_ofCode? fun hs => hsz ⟨rfl, hs⟩
      exact ⟨_, execScale_next hs hc⟩
    | reqmem => exact absurd rfl hne

end

/-- Settles O17: a word with a reserved OP fails the check first and is not decoded; on any other
word the check on its bits is the one on its fields. -/
theorem executorFaultsAreCheckUops : Obligations.ExecutorFaultsAreCheckUops := by
  intro s w rest he hs hq
  rw [step_executor_runs he hs hq]
  cases hd : opOfBits? (w.extractLsb' 61 3) with
  | none =>
    have hc := checkUop_of_reservedOp s.nTmp (opOfBits?_eq_none.mp hd)
    simp [decodeUop, hd, hc, State.faultEntry, State.popped, State.taken, State.withTurns]
  | some op =>
    rw [opOfBits?_eq_some] at hd
    rw [decodeUop_of_op hd, checkUop_eq_uopFault s.nTmp hd]
    refine ⟨fun f hf => ?_, fun hn => ?_⟩
    · have hx := exec_of_uopFault (s := s.taken.popped rest) hf
      rw [encodeUop_uopFields hd] at hx
      exact hx
    · obtain ⟨c, v, hx⟩ | ⟨a, hx⟩ := exec_of_uopFault_none (s := s.taken.popped rest) hn
      · exact ⟨_, hx, idleOrRunning_ne_faulted _, rfl, rfl, rfl⟩
      · exact ⟨_, hx, by simp, rfl, rfl, rfl⟩

/-! ### The six micro-operations (41_micro_instructions.md R81 to R86) -/

/-- A write of a cell of the instance changes that cell alone, and the executor goes on. -/
theorem write_writesAndGoesOn (s : State) {c : Cell} (v : Word) (h : c.present s.nTmp = true) :
    WritesAndGoesOn c v s (s.write c v).proceed :=
  ⟨s.rf.read_write_storedAs v h, ⟨fun x => s.rf.read_write_ne c x v, s.write_nTmp c v⟩,
    idleOrRunning_eq s.q, rfl, rfl, rfl, rfl, rfl, rfl, rfl, rfl⟩

/-- Settles O11: RA resolves to a cell or the check finds the fault. -/
theorem zeroClearsItsCell : Obligations.ZeroClearsItsCell := by
  refine fun u s => ⟨fun c hc => ?_, fun hn => ?_, fun hi => ?_, encodeUop_op .zero u⟩
  · exact ⟨_, execZero_next hc, write_writesAndGoesOn s 0 (decodeRef_present hc)⟩
  · exact exec_of_uopFault (op := .zero) (by simp [uopFault, hn])
  · exact exec_of_uopFault (op := .zero) (by simp [uopFault, hi])

/-- Settles O12: as O11, with the literal. -/
theorem setWritesTheLiteral : Obligations.SetWritesTheLiteral := by
  refine fun u s => ⟨fun c hc => ?_, fun hn => ?_, fun hi => ?_, encodeUop_op .set u⟩
  · exact ⟨_, execSet_next hc, write_writesAndGoesOn s u.lit (decodeRef_present hc)⟩
  · exact exec_of_uopFault (op := .set) (by simp [uopFault, hn])
  · exact exec_of_uopFault (op := .set) (by simp [uopFault, hi])

/-- Settles O13: RA and RB resolve or the check finds the fault. -/
theorem movCopiesItsSource : Obligations.MovCopiesItsSource := by
  refine fun u s => ⟨fun c x hc hx => ?_, fun hn => ?_, fun hi hb => ?_, encodeUop_op .mov u⟩
  · exact ⟨_, execMov_next hc hx, write_writesAndGoesOn s (s.read x) (decodeRef_present hc)⟩
  · obtain hn | hn := hn <;> exact exec_of_uopFault (op := .mov) (by simp [uopFault, hn])
  · exact exec_of_uopFault (op := .mov) (by simp [uopFault, hi, hb])

theorem add_eq_ofNat_mod (a b : Word) :
    a + b = BitVec.ofNat 32 ((a.toNat + b.toNat) % 2 ^ 32) := by
  rw [← BitVec.toNat_add, BitVec.ofNat_toNat, BitVec.setWidth_eq]

/-- Settles O14: as O13, with the sum. -/
theorem addAccumulatesModulo : Obligations.AddAccumulatesModulo := by
  refine fun u s => ⟨fun c x hc hx => ?_, fun hn => ?_, fun hi hb => ?_, encodeUop_op .add u⟩
  · refine ⟨_, execAdd_next hc hx, ?_⟩
    have hw := write_writesAndGoesOn s (s.rf.read c + s.read x) (decodeRef_present hc)
    exact add_eq_ofNat_mod (s.rf.read c) (s.read x) ▸ hw
  · obtain hn | hn := hn <;> exact exec_of_uopFault (op := .add) (by simp [uopFault, hn])
  · exact exec_of_uopFault (op := .add) (by simp [uopFault, hi, hb])

/-- Scaling by a size multiplies by 2 to its code (30_encoding.md R56). -/
theorem shiftLeft_shiftOf (a : Word) (sz : OperandSize) :
    a <<< shiftOf sz = BitVec.ofNat 32 (a.toNat * 2 ^ sz.code.toNat % 2 ^ 32) := by
  have hk : shiftOf sz = sz.code.toNat := by cases sz <;> rfl
  rw [hk, ← Nat.shiftLeft_eq, ← BitVec.toNat_shiftLeft, BitVec.ofNat_toNat, BitVec.setWidth_eq]

/-- Settles O15: SZ and RA resolve or the check finds the fault, SZ first. -/
theorem scaleShiftsBySize : Obligations.ScaleShiftsBySize := by
  refine fun u s => ⟨fun c hs hc => ?_, fun hs => ?_, fun hs hn => ?_, fun hs hi => ?_,
    encodeUop_op .scale u⟩
  · obtain ⟨sz, hsz⟩ := OperandSize.exists_ofCode? hs
    rw [OperandSize.ofCode?_eq_some.mp hsz, ← shiftLeft_shiftOf]
    exact ⟨_, execScale_next hsz hc, write_writesAndGoesOn s _ (decodeRef_present hc)⟩
  · exact exec_of_uopFault (op := .scale) (by simp [uopFault, hs])
  · exact exec_of_uopFault (op := .scale) (by simp [uopFault, hs, hn])
  · exact exec_of_uopFault (op := .scale) (by simp [uopFault, hs, hi])

/-- A `host_write` leaves the latched address (41_micro_instructions.md R86). -/
theorem hostWrite_pendAddr {s t : State} {k : BitVec 6} {v : Word} {ts : List Turn}
    (hc : s.turns = .host (.hostWrite k v) :: ts) (h : step s = .next t) :
    t.pendAddr = s.pendAddr := by
  cases hostEffect_of_step hc h <;> rfl

/-- Settles O16: RA resolves or the check finds BAD_REF; what follows the request is O37 and the
effect of a `host_write`. -/
theorem requestMemLatchesAndSuspends : Obligations.RequestMemLatchesAndSuspends := by
  refine fun u s => ⟨fun x hx => ⟨_, execReqmem_next hx, ?_, ?_, ?_⟩, fun hn => ?_,
    encodeUop_op .reqmem u⟩
  · cases x <;> rfl
  · exact fun k v t' => hostWrite_pendAddr rfl
  · intro hq v t' ht'
    obtain ⟨hresume, -⟩ := resumeStoresTheAnswerAndGoesOn
      { s.suspend (s.read x) with turns := [.host (.resume v)] } v [] rfl
    cases (hresume rfl).symm.trans ht'
    exact if_pos hq
  · exact exec_of_uopFault (op := .reqmem) (by simp [uopFault, hn])

end Sys2Proof.Machine
end

section
/-! PROOFS. The words of a lowering, and what `lower` appends (42_addressing_modes.md R98 to R120).
-/

namespace Sys2Proof.Machine

/-! ### The words of R101's table -/

/-- Above a zero low half nothing carries. -/
theorem or_eq_add_of_low_zero {x : UopWord} (v : Word) (h : x.extractLsb' 0 32 = 0) :
    x ||| v.setWidth 64 = x + v.setWidth 64 := by
  refine (BitVec.add_eq_or_of_and_eq_zero _ _ (BitVec.eq_of_getLsbD_eq fun i _ => ?_)).symm
  rw [BitVec.getLsbD_and, BitVec.getLsbD_setWidth, BitVec.getLsbD_zero]
  by_cases hi : i < 32
  · have hx : x.getLsbD i = false := by
      simpa [BitVec.getLsbD_extractLsb', hi] using congrArg (BitVec.getLsbD · i) h
    simp [hx]
  · simp [BitVec.getLsbD_of_ge v i (Nat.le_of_not_lt hi)]

/-- LIT is added to the word without it (30_encoding.md R59). -/
theorem encodeUop_lit (op : OpCode) (ra rb : RefCode) (sz : BitVec 2) (rsv : BitVec 15) (v : Word) :
    encodeUop op ⟨ra, rb, sz, rsv, v⟩ = encodeUop op ⟨ra, rb, sz, rsv, 0⟩ + v.setWidth 64 := by
  rw [← or_eq_add_of_low_zero v (by simp)]
  simp [encodeUop, place]

theorem uMov_in0_d (n : RegNum) : uMov .in0 (.d n) = wMovIn0D n.val := by
  revert n; decide

theorem uMov_in0_a (n : RegNum) : uMov .in0 (.a n) = wMovIn0A n.val := by
  revert n; decide

theorem uMov_in0_pc : uMov .in0 .pc = wMovIn0Pc := by decide

theorem uMov_in0_ioBuffer : uMov .in0 .ioBuffer = wMovIn0IoBuffer := by decide

theorem uMov_in1_index (x : IndexReg) : uMov .in1 x.ref = wMovIn1X (indexRegCode x) := by
  cases x with
  | d n => revert n; decide
  | a n => revert n; decide

theorem uReq_in0 : uReq .in0 = wReqIn0 := by decide

theorem uReq_a (n : RegNum) : uReq (.a n) = wReqA n.val := by
  revert n; decide

theorem uReqImm_eq (v : Word) : uReqImm v = wReqImm v := by
  rw [uReqImm, encodeUop_lit]
  exact congrArg (· + _) (by decide)

theorem uAdd_in0_in1 : uAdd .in0 .in1 = wAddIn0In1 := by decide

theorem uAddImm_in0 (v : Word) : uAddImm .in0 v = wAddIn0Imm v := by
  rw [uAddImm, encodeUop_lit]
  exact congrArg (· + _) (by decide)

theorem uAddImm_a (n : RegNum) (v : Word) : uAddImm (.a n) v = wAddAImm n.val v := by
  rw [uAddImm, encodeUop_lit]
  exact congrArg (· + _) (by revert n; decide)

theorem uScale_in1 (sc : OperandSize) : uScale .in1 sc = wScaleIn1 (sizeCode sc) := by
  cases sc <;> decide

theorem bytesOf_eq (sz : OperandSize) : bytesOf sz = 1#32 <<< sizeCode sz := by
  cases sz <;> rfl

/-! ### The sub-sequences of R101, as words -/

theorem fetchRef_in0_words : fetchRef .in0 = [wReqIn0, wMovIn0IoBuffer] := by
  rw [fetchRef, uReq_in0, uMov_in0_ioBuffer]

theorem fetchRef_a_words (n : RegNum) :
    fetchRef (.a n) = [wReqA n.val, wMovIn0IoBuffer] := by
  rw [fetchRef, uReq_a, uMov_in0_ioBuffer]

theorem fetchImm_words (v : Word) : fetchImm v = [wReqImm v, wMovIn0IoBuffer] := by
  rw [fetchImm, uReqImm_eq, uMov_in0_ioBuffer]

theorem base_a_words (n : RegNum) (d : Word) :
    base (.a n) d = [wMovIn0A n.val, wAddIn0Imm d] := by
  rw [base, uMov_in0_a, uAddImm_in0]

theorem base_pc_words (d : Word) : base .pc d = [wMovIn0Pc, wAddIn0Imm d] := by
  rw [base, uMov_in0_pc, uAddImm_in0]

theorem index_words (x : IndexReg) (sc : OperandSize) :
    index x sc = [wMovIn1X (indexRegCode x), wScaleIn1 (sizeCode sc), wAddIn0In1] := by
  rw [index, uMov_in1_index, uScale_in1, uAdd_in0_in1]

theorem seqApost_words (n : RegNum) (sz : OperandSize) : seqApost n sz =
    [wReqA n.val, wMovIn0IoBuffer, wAddAImm n.val (1#32 <<< sizeCode sz)] := by
  simp [seqApost, fetchRef_a_words, uAddImm_a, bytesOf_eq]

theorem seqApre_words (n : RegNum) (sz : OperandSize) : seqApre n sz =
    [wAddAImm n.val (0#32 - 1#32 <<< sizeCode sz), wReqA n.val, wMovIn0IoBuffer] := by
  simp [seqApre, fetchRef_a_words, uAddImm_a, bytesOf_eq]

section
variable (b : RefCode) (d1 : Word) (x : IndexReg) (sc : OperandSize) (d2 : Word)

theorem seqDisp_words : seqDisp b d1 = base b d1 ++ [wReqIn0, wMovIn0IoBuffer] := by
  rw [seqDisp, fetchRef_in0_words]

theorem seqIndexed_words : seqIndexed b d1 x sc = base b d1 ++
    [wMovIn1X (indexRegCode x), wScaleIn1 (sizeCode sc), wAddIn0In1, wReqIn0, wMovIn0IoBuffer] := by
  simp [seqIndexed, index_words, fetchRef_in0_words]

theorem seqPostIndexed_words : seqPostIndexed b d1 x sc d2 = base b d1 ++
    [wReqIn0, wMovIn0IoBuffer, wMovIn1X (indexRegCode x), wScaleIn1 (sizeCode sc), wAddIn0In1,
      wAddIn0Imm d2, wReqIn0, wMovIn0IoBuffer] := by
  simp [seqPostIndexed, index_words, fetchRef_in0_words, uAddImm_in0]

theorem seqPreIndexed_words : seqPreIndexed b d1 x sc d2 = base b d1 ++
    [wMovIn1X (indexRegCode x), wScaleIn1 (sizeCode sc), wAddIn0In1, wReqIn0, wMovIn0IoBuffer,
      wAddIn0Imm d2, wReqIn0, wMovIn0IoBuffer] := by
  simp [seqPreIndexed, index_words, fetchRef_in0_words, uAddImm_in0]

end

/-! ### What executing a descriptor appends -/

/-- A descriptor whose lowering is `ws` lowers to `ws`, by the three outcomes of `append`. -/
theorem lowersTo_of_loweringOf {i : Instr} {ws : List UopWord} (hd : i.isDesc = true)
    (hw : loweringOf i = ws) : LowersTo i ws := by
  intro s
  rw [exec_desc hd, hw]
  refine ⟨fun hs hfit => ?_, fun hs hfull => ?_, fun hs => ?_⟩
  · rw [State.append_ok hs hfit]; rfl
  · rw [State.append, if_neg hs, if_pos hfull]; rfl
  · rw [State.append, if_pos hs]; rfl

/-- Settles O20: the one word of each lowering. -/
theorem directKindsAppendTheirMov : Obligations.DirectKindsAppendTheirMov := fun n =>
  ⟨lowersTo_of_loweringOf rfl (congrArg ([·]) (uMov_in0_d n)),
    lowersTo_of_loweringOf rfl (congrArg ([·]) (uMov_in0_a n))⟩

/-- Settles O21: the words of each lowering. -/
theorem indirectKindsAppendTheirFetch : Obligations.IndirectKindsAppendTheirFetch := fun n sz =>
  ⟨lowersTo_of_loweringOf rfl (fetchRef_a_words n),
    lowersTo_of_loweringOf rfl (seqApost_words n sz),
    lowersTo_of_loweringOf rfl (seqApre_words n sz)⟩

/-- Settles O22: the words of each lowering. -/
theorem displacementKindsAppendBaseAndFetch :
    Obligations.DisplacementKindsAppendBaseAndFetch := by
  refine fun n d1 => ⟨lowersTo_of_loweringOf rfl ((seqDisp_words _ d1).trans ?_),
    lowersTo_of_loweringOf rfl ((seqDisp_words _ d1).trans ?_)⟩
  · rw [base_a_words]; rfl
  · rw [base_pc_words]; rfl

/-- Settles O23: the words of each lowering. -/
theorem indexedKindsAppendIndexAndFetch : Obligations.IndexedKindsAppendIndexAndFetch := by
  refine fun n d1 x sc => ⟨lowersTo_of_loweringOf rfl ((seqIndexed_words _ d1 x sc).trans ?_),
    lowersTo_of_loweringOf rfl ((seqIndexed_words _ d1 x sc).trans ?_)⟩
  · rw [base_a_words]; rfl
  · rw [base_pc_words]; rfl

/-- Settles O24: the words of each lowering. -/
theorem memoryIndirectKindsAppendTwoFetches :
    Obligations.MemoryIndirectKindsAppendTwoFetches := by
  refine fun n d1 x sc d2 =>
    ⟨lowersTo_of_loweringOf rfl ((seqPostIndexed_words _ d1 x sc d2).trans ?_),
      lowersTo_of_loweringOf rfl ((seqPreIndexed_words _ d1 x sc d2).trans ?_),
      lowersTo_of_loweringOf rfl ((seqPostIndexed_words _ d1 x sc d2).trans ?_),
      lowersTo_of_loweringOf rfl ((seqPreIndexed_words _ d1 x sc d2).trans ?_)⟩
  · rw [base_a_words]; rfl
  · rw [base_a_words]; rfl
  · rw [base_pc_words]; rfl
  · rw [base_pc_words]; rfl

/-- Settles O25: the words of FETCH at a literal. -/
theorem literalKindsAppendOneFetch : Obligations.LiteralKindsAppendOneFetch := fun d1 =>
  ⟨lowersTo_of_loweringOf rfl (fetchImm_words d1), lowersTo_of_loweringOf rfl (fetchImm_words d1),
    lowersTo_of_loweringOf rfl (fetchImm_words d1)⟩

/-! ### `lower` -/

/-- Settles O9: the host's turn runs what the descriptor decodes to. -/
theorem stepRunsTheLoweredDescriptor : Obligations.StepRunsTheLoweredDescriptor := by
  intro s e ts i hts hd
  rw [step_host hts, State.taken_eq hts]
  simp only [hostTurn, hd, perform]

/-- Settles O26: the decoder rejects exactly the reserved descriptors, and what it accepts lowers to
its lowering, in the three cases of `LowersTo`. -/
theorem lowerAppendsWholeOrNothing : Obligations.LowerAppendsWholeOrNothing := by
  intro s e ts hts
  cases hd : decodeDesc e with
  | error r =>
    have hr : reservedDesc e := decodeDesc_eq_error.mp ⟨r, hd⟩
    have hstep := step_lower_error hts hd
    rw [State.taken_eq hts] at hstep
    refine ⟨fun hs => ?_, fun hs _ => ?_, fun _ hnr => absurd hr hnr⟩
    · rw [hstep, if_pos hs]; rfl
    · rw [hstep, if_neg hs]; rfl
  | ok i =>
    have hnr : ¬ reservedDesc e := fun hr => by
      obtain ⟨r, hr⟩ := decodeDesc_eq_error.mpr hr
      cases hd.symm.trans hr
    obtain ⟨hfits, hfull, hfaulted⟩ :=
      lowersTo_of_loweringOf (decodeDesc_isDesc hd) rfl { s with turns := ts }
    have hstep := stepRunsTheLoweredDescriptor s e ts i hts hd
    exact ⟨fun hs => hstep.trans (hfaulted hs), fun _ hr => absurd hr hnr, fun hs _ =>
      ⟨_, translateDesc_ok hd, fun h => hstep.trans (hfull hs h),
        fun h => hstep.trans (hfits hs h)⟩⟩

/-! ### R120's table -/

/-- The length of a sequence and the number of its words with OP = 101. -/
def lengthAndRequests (l : List UopWord) : Nat × Nat :=
  (l.length, (l.filter fun w => w.extractLsb' 61 3 == 0b101#3).length)

@[simp] theorem lengthAndRequests_nil : lengthAndRequests [] = (0, 0) := rfl

@[simp] theorem lengthAndRequests_append (l l' : List UopWord) :
    lengthAndRequests (l ++ l') = lengthAndRequests l + lengthAndRequests l' := by
  simp [lengthAndRequests]

@[simp] theorem lengthAndRequests_cons (op : OpCode) (u : Uop) (l : List UopWord) :
    lengthAndRequests (encodeUop op u :: l) =
      (1, if op = .reqmem then 1 else 0) + lengthAndRequests l := by
  cases op <;> simp [lengthAndRequests, encodeUop_op, OpCode.bits, Nat.add_comm]

@[simp] theorem lengthAndRequests_fetchRef (a : RefCode) :
    lengthAndRequests (fetchRef a) = (2, 1) := by
  simp [fetchRef, uReq, uMov]

@[simp] theorem lengthAndRequests_fetchImm (v : Word) :
    lengthAndRequests (fetchImm v) = (2, 1) := by
  simp [fetchImm, uReqImm, uMov]

@[simp] theorem lengthAndRequests_base (b : RefCode) (d : Word) :
    lengthAndRequests (base b d) = (2, 0) := by
  simp [base, uMov, uAddImm]

@[simp] theorem lengthAndRequests_index (x : IndexReg) (sc : OperandSize) :
    lengthAndRequests (index x sc) = (3, 0) := by
  simp [index, uMov, uScale, uAdd]

section
variable (b : RefCode) (d1 : Word) (x : IndexReg) (sc : OperandSize) (d2 : Word)

@[simp] theorem lengthAndRequests_seqPostIndexed :
    lengthAndRequests (seqPostIndexed b d1 x sc d2) = (10, 2) := by
  simp [seqPostIndexed, uAddImm]

@[simp] theorem lengthAndRequests_seqPreIndexed :
    lengthAndRequests (seqPreIndexed b d1 x sc d2) = (10, 2) := by
  simp [seqPreIndexed, uAddImm]

end

/-- Settles O27: kind by kind, each sequence being made of the sub-sequences of R101. -/
theorem sequenceLengthsAndFetchCounts : Obligations.SequenceLengthsAndFetchCounts := by
  intro e seq h
  change lengthAndRequests seq = _
  cases hd : decodeDesc e with
  | error r => simp [translateDesc, hd, Except.map] at h
  | ok i =>
    obtain rfl := Except.ok.inj ((translateDesc_ok hd).symm.trans h)
    simp only [decodeDesc] at hd
    split at hd
    case h_17 => cases hd
    case h_4 hk | h_5 hk =>
      obtain ⟨sz, -, rfl⟩ := withSize_ok hd
      rw [show kindOf e = _ from hk]
      simp [loweringOf, seqApost, seqApre, uAddImm]
    case h_7 hk | h_8 hk | h_9 hk | h_11 hk | h_12 hk | h_13 hk =>
      obtain ⟨sc, -, rfl⟩ := withScale_ok hd
      rw [show kindOf e = _ from hk]
      simp [loweringOf, seqAidx, seqAmipost, seqAmipre, seqPcidx, seqPcmipost, seqPcmipre,
        seqIndexed]
    case h_1 hk | h_2 hk | h_3 hk | h_6 hk | h_10 hk | h_14 hk | h_15 hk | h_16 hk =>
      cases hd
      rw [show kindOf e = _ from hk]
      simp [loweringOf, seqDreg, seqAreg, seqAind, seqAdisp, seqPcdisp, seqAbsw, seqAbsl, seqImm,
        seqDisp, uMov]

end Sys2Proof.Machine
end

section
/-! PROOFS. What running a lowering does (42_addressing_modes.md R102 to R119): each sub-sequence of
R101 computes a register file, a request suspends, and the runs are put together from these. -/

namespace Sys2Proof.Machine

variable {s : State} {e : DescWord}

/-! ### A lowering under way -/

/-- `s` while a lowering runs: the registers are `rf`, the words `q` are left, `addr` was the last
address requested, and the next `k` turns are the executor's. -/
def State.amid (s : State) (rf : RegFile) (q : List UopWord) (addr : Word) (k : Nat) : State :=
  { s with
    rf := rf
    q := q
    st := idleOrRunning q
    pendAddr := addr
    turns := List.replicate k .executor
    reply := okReply }

/-- `s` while a request at `addr` is pending, with no turn chosen. -/
def State.awaiting (s : State) (rf : RegFile) (q : List UopWord) (addr : Word) : State :=
  { s.amid rf q addr 0 with st := .suspended }

/-- Running the words `ws` at the head of the queue takes the registers from `rf` to `rf'`, one step
a word, and makes no request. -/
def Computes (ws : List UopWord) (rf rf' : RegFile) : Prop :=
  ∀ (s : State) (q : List UopWord) (addr : Word) (k : Nat),
    runSteps (k + ws.length) (s.amid rf (ws ++ q) addr (k + ws.length)) =
      runSteps k (s.amid rf' q addr k)

/-- With the registers `rf`, the word `w` suspends at the address `a`. -/
def Requests (w : UopWord) (rf : RegFile) (a : Word) : Prop :=
  ∀ (s : State) (q : List UopWord) (addr : Word),
    runSteps 1 (s.amid rf (w :: q) addr 1) = .next (s.awaiting rf q a)

theorem Computes.append {ws ws' : List UopWord} {rf rf' rf'' : RegFile} (h : Computes ws rf rf')
    (h' : Computes ws' rf' rf'') : Computes (ws ++ ws') rf rf'' := by
  intro s q addr k
  rw [List.append_assoc, List.length_append, Nat.add_comm ws.length, ← Nat.add_assoc, h, h']

theorem computes_nil (rf : RegFile) : Computes [] rf rf := fun _ _ _ _ => rfl

/-! ### One word -/

/-- The reference names the cell `c`, whatever LIT and N_TMP are. -/
def Names (r : RefCode) (c : Cell) : Prop := ∀ n lit, decodeRef n lit r = some (.cell c)

theorem Names.wf {r : RefCode} {c : Cell} (h : Names r c) : r.wf = true := by
  cases r with
  | reserved k => cases h 0 0
  | d | a | pc | ccr | in0 | in1 | ioBuffer | tmp | imm => rfl

theorem names_d (n : RegNum) : Names (.d n) (.d n) := fun _ _ => rfl
theorem names_a (n : RegNum) : Names (.a n) (.a n) := fun _ _ => rfl
theorem names_pc : Names .pc .pc := fun _ _ => rfl
theorem names_in0 : Names .in0 .in0 := fun _ _ => rfl
theorem names_in1 : Names .in1 .in1 := fun _ _ => rfl
theorem names_ioBuffer : Names .ioBuffer .ioBuffer := fun _ _ => rfl

section
variable {rf : RegFile} {u : Uop}

/-- The executor's step while a lowering runs is the head word's operation. -/
theorem step_amid (op : OpCode) (hu : u.wf = true) (q : List UopWord) (addr : Word) (k : Nat) :
    step (s.amid rf (encodeUop op u :: q) addr (k + 1)) =
      exec (op.instr u) { s.amid rf q addr k with st := .running } := by
  rw [step_executor_runs ⟨_, rfl⟩ rfl rfl, decodeUop_encodeUop op hu]
  rfl

/-- A word that completes writes its one cell. -/
theorem computes_word {op : OpCode} {c : Cell} {v : Word} (ha : u.ra.wf = true)
    (hb : u.rb.wf = true)
    (hx : ∀ t : State, t.rf = rf → exec (op.instr u) t = .next (t.write c v).proceed) :
    Computes [encodeUop op u] rf (rf.write c v) := by
  intro s q addr k
  exact runSteps_succ k
    ((step_amid op (Bool.and_eq_true_iff.mpr ⟨ha, hb⟩) q addr k).trans (hx _ rfl))

theorem requests_word {a : Word} (ha : u.ra.wf = true) (hb : u.rb.wf = true)
    (hx : ∀ t : State, t.rf = rf → exec (.reqmem u) t = .next (t.suspend a)) :
    Requests (encodeUop .reqmem u) rf a := by
  intro s q addr
  exact runSteps_succ 0
    ((step_amid .reqmem (Bool.and_eq_true_iff.mpr ⟨ha, hb⟩) q addr 0).trans (hx _ rfl))

variable {r r' : RefCode} {c c' : Cell} (rf)

theorem computes_mov (h : Names r c) (h' : Names r' c') :
    Computes [uMov r r'] rf (rf.write c (rf.read c')) := by
  refine computes_word h.wf h'.wf ?_
  rintro t rfl
  exact execMov_next (u := ⟨r, r', 0, 0, 0⟩) (x := .cell c') (h t.nTmp 0) (h' t.nTmp 0)

theorem computes_add (h : Names r c) (h' : Names r' c') :
    Computes [uAdd r r'] rf (rf.write c (rf.read c + rf.read c')) := by
  refine computes_word h.wf h'.wf ?_
  rintro t rfl
  exact execAdd_next (u := ⟨r, r', 0, 0, 0⟩) (x := .cell c') (h t.nTmp 0) (h' t.nTmp 0)

theorem computes_addImm (h : Names r c) (v : Word) :
    Computes [uAddImm r v] rf (rf.write c (rf.read c + v)) := by
  refine computes_word h.wf rfl ?_
  rintro t rfl
  exact execAdd_next (u := ⟨r, .imm, 0, 0, v⟩) (x := .imm v) (h t.nTmp v)
    (decodeRef_immCode t.nTmp v)

theorem computes_scale (h : Names r c) (sz : OperandSize) :
    Computes [uScale r sz] rf (rf.write c (rf.read c <<< shiftOf sz)) := by
  refine computes_word h.wf rfl ?_
  rintro t rfl
  exact execScale_next (u := ⟨r, unusedRef, sz.code, 0, 0⟩) (OperandSize.ofCode?_code sz)
    (h t.nTmp 0)

theorem requests_ref (h : Names r c) : Requests (uReq r) rf (rf.read c) := by
  refine requests_word h.wf rfl ?_
  rintro t rfl
  exact execReqmem_next (u := ⟨r, unusedRef, 0, 0, 0⟩) (h t.nTmp 0)

theorem requests_imm (v : Word) : Requests (uReqImm v) rf v :=
  requests_word rfl rfl fun t _ =>
    execReqmem_next (u := ⟨.imm, unusedRef, 0, 0, v⟩) (decodeRef_immCode t.nTmp v)

/-! ### The sub-sequences of R101 -/

/-- The second word of FETCH. -/
theorem computes_stage : Computes [uMov .in0 .ioBuffer] rf { rf with in0 := rf.ioBuffer } :=
  computes_mov rf names_in0 names_ioBuffer

theorem computes_base (h : Names r c) (d : Word) :
    Computes (base r d) rf { rf with in0 := rf.read c + d } :=
  (computes_mov rf names_in0 h).append (computes_addImm _ names_in0 d)

/-- `A[n]` plus a literal (42_addressing_modes.md R106). -/
theorem computes_stepA (n : RegNum) (v : Word) : Computes [uAddImm (.a n) v] rf
    { rf with a := rf.a.set n.val (rf.a.get n + v) } :=
  computes_addImm rf (names_a n) v

/-- `A[n]` plus a negated literal (42_addressing_modes.md R107). -/
theorem computes_stepBackA (n : RegNum) (v : Word) : Computes [uAddImm (.a n) (-v)] rf
    { rf with a := rf.a.set n.val (rf.a.get n - v) } := by
  rw [BitVec.sub_eq_add_neg]
  exact computes_stepA rf n (-v)

theorem computes_index {x : IndexReg} (h : Names x.ref c) (sc : OperandSize) :
    Computes (index x sc) rf
      { rf with
        in0 := rf.in0 + rf.read c <<< shiftOf sc
        in1 := rf.read c <<< shiftOf sc } := by
  have hmov : Computes [uMov .in1 x.ref] rf { rf with in1 := rf.read c } :=
    computes_mov rf names_in1 h
  have hscale : Computes [uScale .in1 sc] { rf with in1 := rf.read c }
      { rf with in1 := rf.read c <<< shiftOf sc } := computes_scale _ names_in1 sc
  exact hmov.append (hscale.append (computes_add _ names_in0 names_in1))

end

/-! ### Runs of a lowering -/

/-- No sequence is longer than ten words (42_addressing_modes.md R120). -/
theorem length_le_of_translateDesc {seq : List UopWord} (ht : translateDesc e = .ok seq) :
    seq.length ≤ Config.qDepthMin := by
  have hlen := congrArg Prod.fst (sequenceLengthsAndFetchCounts e seq ht)
  unfold Config.qDepthMin
  split_ifs at hlen <;> simp only at hlen <;> omega

/-- From `Ready` a descriptor that translates is appended, and the executor's steps run it. -/
theorem lowerThen_eq {seq : List UopWord} (hR : Ready s) (ht : translateDesc e = .ok seq)
    (k : Nat) :
    lowerThen k e s = runSteps k (s.amid s.rf seq s.pendAddr k) := by
  cases hd : decodeDesc e with
  | error r => simp [translateDesc, hd, Except.map] at ht
  | ok i =>
    obtain rfl := Except.ok.inj ((translateDesc_ok hd).symm.trans ht)
    obtain ⟨hidle, hempty, hroom⟩ := hR
    have hdesc := decodeDesc_isDesc hd
    have hfit : s.q.length + (loweringOf i).length ≤ s.qDepth := by
      have hlen := length_le_of_translateDesc ht
      rw [hempty, List.length_nil]
      omega
    obtain ⟨happend, -⟩ := lowersTo_of_loweringOf hdesc rfl
      { s with turns := List.replicate k .executor }
    have hstep := (stepRunsTheLoweredDescriptor
      { s with turns := .host (.lower e) :: List.replicate k .executor } e _ i rfl hd).trans
      (happend (by simp [hidle]) hfit)
    refine runSteps_succ k (hstep.trans ?_)
    simp [State.amid, hidle, hempty, idleOrRunning_eq, loweringOf_ne_nil hdesc]

theorem resumeThen_awaiting (rf : RegFile) (q : List UopWord) (a v : Word) (m : Nat) :
    resumeThen m v (s.awaiting rf q a) =
      runSteps m (s.amid { rf with ioBuffer := v } q a m) := by
  obtain ⟨hresume, -⟩ := resumeStoresTheAnswerAndGoesOn
    { s.awaiting rf q a with turns := .host (.resume v) :: List.replicate m .executor } v _ rfl
  refine runSteps_succ m ((hresume rfl).trans ?_)
  rw [← idleOrRunning_eq]
  rfl

theorem failsFrom_awaiting (rf : RegFile) (q : List UopWord) (a : Word) :
    FailsFrom s (s.awaiting rf q a) a := by
  obtain ⟨hfail, -⟩ := failAbortsWithFetchFail
    { s.awaiting rf q a with turns := [.host .fail] } [] rfl
  exact hfail rfl

theorem amid_done (hR : Ready s) (rf : RegFile) (a : Word) : s.amid rf [] a 0 =
    { s with rf := rf, pendAddr := a, turns := [], reply := okReply } := by
  obtain ⟨hidle, hempty, -⟩ := hR
  simp [State.amid, hidle, hempty]

/-- The last words of a lowering end Idle. -/
theorem Computes.ends {ws : List UopWord} {rf rf' : RegFile} (h : Computes ws rf rf') (hR : Ready s)
    (a : Word) : runSteps ws.length (s.amid rf ws a ws.length) =
      .next { s with rf := rf', pendAddr := a, turns := [], reply := okReply } := by
  have hrun := h s [] a 0
  rw [List.append_nil, Nat.zero_add] at hrun
  rw [hrun, ← amid_done hR]
  rfl

/-- A lowering without a request ends Idle after its words. -/
theorem Computes.completes {ws : List UopWord} {rf' : RegFile} (h : Computes ws s.rf rf')
    (hR : Ready s) (ht : translateDesc e = .ok ws) : lowerThen ws.length e s =
      .next { s with rf := rf', turns := [], reply := okReply } :=
  (lowerThen_eq hR ht ws.length).trans (h.ends hR s.pendAddr)

/-- Words up to and with a request suspend there. -/
theorem Computes.suspends {ws : List UopWord} {rf rf' : RegFile} {w : UopWord} {a : Word}
    (h : Computes ws rf rf') (hw : Requests w rf' a) (q : List UopWord) (addr : Word) :
    runSteps (1 + ws.length) (s.amid rf (ws ++ w :: q) addr (1 + ws.length)) =
      .next (s.awaiting rf' q a) :=
  (h s (w :: q) addr 1).trans (hw s q addr)

/-- A lowering with one request, at its word `w`. -/
theorem fetchesOnce {seq pre post : List UopWord} {w : UopWord} {addr : Word} {rfAt : RegFile}
    {rfEnd : Word → RegFile} (hR : Ready s) (ht : translateDesc e = .ok seq)
    (hseq : seq = pre ++ w :: post)
    (hpre : Computes pre s.rf rfAt) (hw : Requests w rfAt addr)
    (hpost : ∀ v, Computes post { rfAt with ioBuffer := v } (rfEnd v)) :
    FetchesOnce s e (1 + pre.length) post.length addr rfAt rfEnd :=
  ⟨s.awaiting rfAt post addr, (lowerThen_eq hR (hseq ▸ ht) _).trans (hpre.suspends hw post _),
    rfl, rfl, rfl, failsFrom_awaiting rfAt post addr,
    fun v => (resumeThen_awaiting rfAt post addr v _).trans ((hpost v).ends hR addr)⟩

/-- A lowering with two requests, at its words `w` and `w'`. -/
theorem fetchesTwice {seq pre mid post : List UopWord} {w w' : UopWord} {a1 : Word}
    {a2 : Word → Word} {rf1 : RegFile} {rf2 rfEnd : Word → RegFile} (hR : Ready s)
    (ht : translateDesc e = .ok seq) (hseq : seq = pre ++ w :: (mid ++ w' :: post))
    (hpre : Computes pre s.rf rf1) (hw : Requests w rf1 a1)
    (hmid : ∀ p, Computes mid { rf1 with ioBuffer := p } (rf2 p))
    (hw' : ∀ p, Requests w' (rf2 p) (a2 p))
    (hpost : ∀ p v, Computes post { rf2 p with ioBuffer := v } (rfEnd v)) :
    FetchesTwice s e (1 + pre.length) (1 + mid.length) post.length a1 a2 rfEnd := by
  subst hseq
  refine ⟨_, (lowerThen_eq hR ht _).trans (hpre.suspends hw _ _), rfl, rfl,
    failsFrom_awaiting rf1 _ a1, fun p => ⟨_,
      (resumeThen_awaiting rf1 _ a1 p _).trans ((hmid p).suspends (hw' p) post a1), rfl, rfl,
      failsFrom_awaiting (rf2 p) post (a2 p), fun v => ?_⟩⟩
  exact (resumeThen_awaiting (rf2 p) post (a2 p) v _).trans ((hpost p v).ends hR (a2 p))

/-! ### The base, the index and the sizes of a descriptor -/

theorem sizeCode_eq (sz : OperandSize) : sizeCode sz = sz.code.toNat := by cases sz <;> rfl

theorem shiftOf_eq (sz : OperandSize) : shiftOf sz = sizeCode sz := by cases sz <;> rfl

/-- A 2-bit code other than 11 is a size's. -/
theorem exists_sizeCode {c : BitVec 2} (h : c.toNat ≠ 3) :
    ∃ sz, sizeCode sz = c.toNat ∧ OperandSize.ofCode? c = some sz := by
  obtain ⟨sz, hsz⟩ := OperandSize.exists_ofCode? fun hc => h (congrArg BitVec.toNat hc)
  exact ⟨sz, by rw [sizeCode_eq, OperandSize.ofCode?_eq_some.mp hsz], hsz⟩

theorem exists_size (h : sizeField e ≠ 3) :
    ∃ sz, sizeCode sz = sizeField e ∧ ∀ k, withSize e k = .ok (k sz) := by
  obtain ⟨sz, hcode, hsz⟩ := exists_sizeCode h
  exact ⟨sz, hcode, fun k => by rw [withSize, descSz, hsz]⟩

theorem exists_scale (h : scaleField e ≠ 3) :
    ∃ sc, sizeCode sc = scaleField e ∧ ∀ k, withScale e k = .ok (k sc) := by
  obtain ⟨sc, hcode, hsc⟩ := exists_sizeCode h
  exact ⟨sc, hcode, fun k => by rw [withScale, descSc, hsc]⟩

theorem stepBytes_eq {sz : OperandSize} (h : sizeCode sz = sizeField e) :
    stepBytes e = bytesOf sz := by
  rw [bytesOf_eq, h, stepBytes]

/-- The index operand, by XA: its reference, its code and its value are of one register. -/
theorem descIndex_cases (e : DescWord) :
    (descIndex e = .d (descXN e) ∧ indexCode e = (descXN e).val ∧
        ∀ rf, indexValue rf e = rf.read (.d (descXN e))) ∨
      (descIndex e = .a (descXN e) ∧ indexCode e = 8 + (descXN e).val ∧
        ∀ rf, indexValue rf e = rf.read (.a (descXN e))) := by
  obtain h | h := BitVec.eq_zero_or_eq_one (e.extractLsb' 10 1)
  · exact .inl ⟨if_pos h, by rw [indexCode, h]; exact Nat.zero_add _, fun rf => if_pos h⟩
  · have hne : e.extractLsb' 10 1 ≠ 0#1 := by rw [h]; decide
    exact .inr ⟨if_neg hne, by rw [indexCode, h]; rfl, fun rf => if_neg hne⟩

theorem indexRegCode_descIndex (e : DescWord) : indexRegCode (descIndex e) = indexCode e := by
  obtain ⟨hx, hcode, -⟩ | ⟨hx, hcode, -⟩ := descIndex_cases e <;> rw [hx, hcode, indexRegCode]

theorem computes_descIndex (rf : RegFile) {sc : OperandSize} (hsc : sizeCode sc = scaleField e) :
    Computes (index (descIndex e) sc) rf
      { rf with in0 := rf.in0 + scaledIndex rf e, in1 := scaledIndex rf e } := by
  rw [scaledIndex, ← hsc, ← shiftOf_eq]
  obtain ⟨hx, -, hv⟩ | ⟨hx, -, hv⟩ := descIndex_cases e
  · rw [hx, hv]
    exact computes_index (x := .d _) rf (names_d (descXN e)) sc
  · rw [hx, hv]
    exact computes_index (x := .a _) rf (names_a (descXN e)) sc

/-- The base of an address-register kind, or PC (42_addressing_modes.md R112). -/
def baseRef (e : DescWord) : RefCode := if kindOf e ≤ 8 then .a (regOf e) else .pc

theorem computes_descBase (rf : RegFile) (e : DescWord) :
    Computes (base (baseRef e) (d1Of e)) rf { rf with in0 := baseValue rf e + d1Of e } := by
  unfold baseRef baseValue
  split
  · exact computes_base rf (names_a (regOf e)) (d1Of e)
  · exact computes_base rf names_pc (d1Of e)

/-- The words of BASE, for an address-register kind `k` or the PC-relative kind beside it. -/
theorem base_baseRef_words {k k' : Nat} (hk : kindOf e = k ∨ kindOf e = k') (hle : k ≤ 8)
    (hlt : 8 < k') (d : Word) : base (baseRef e) d =
      [if kindOf e = k then wMovIn0A (regOf e).val else wMovIn0Pc, wAddIn0Imm d] := by
  obtain hk | hk := hk
  · rw [baseRef, hk, if_pos hle, if_pos rfl, base_a_words]
  · rw [baseRef, hk, if_neg (by omega), if_neg (by omega), base_pc_words]

/-! ### The translation, by KIND -/

theorem descKind_toNat (e : DescWord) : (descKind e).toNat = kindOf e := rfl

theorem translateDesc_dreg (hk : kindOf e = 0) : translateDesc e = .ok (seqDreg (regOf e)) :=
  translateDesc_ok (i := .dreg (regOf e)) (by simp only [decodeDesc, descKind_toNat, hk]; rfl)

theorem translateDesc_areg (hk : kindOf e = 1) : translateDesc e = .ok (seqAreg (regOf e)) :=
  translateDesc_ok (i := .areg (regOf e)) (by simp only [decodeDesc, descKind_toNat, hk]; rfl)

theorem translateDesc_aind (hk : kindOf e = 2) : translateDesc e = .ok (seqAind (regOf e)) :=
  translateDesc_ok (i := .aind (regOf e)) (by simp only [decodeDesc, descKind_toNat, hk]; rfl)

theorem translateDesc_apost (hk : kindOf e = 3) (hsz : sizeField e ≠ 3) :
    ∃ sz, sizeCode sz = sizeField e ∧ translateDesc e = .ok (seqApost (regOf e) sz) := by
  obtain ⟨sz, hcode, hs⟩ := exists_size hsz
  exact ⟨sz, hcode, translateDesc_ok (i := .apost (regOf e) sz) (by
    simp only [decodeDesc, descKind_toNat, hk, hs]; rfl)⟩

theorem translateDesc_apre (hk : kindOf e = 4) (hsz : sizeField e ≠ 3) :
    ∃ sz, sizeCode sz = sizeField e ∧ translateDesc e = .ok (seqApre (regOf e) sz) := by
  obtain ⟨sz, hcode, hs⟩ := exists_size hsz
  exact ⟨sz, hcode, translateDesc_ok (i := .apre (regOf e) sz) (by
    simp only [decodeDesc, descKind_toNat, hk, hs]; rfl)⟩

theorem translateDesc_disp (hk : kindOf e = 5 ∨ kindOf e = 9) :
    translateDesc e = .ok (seqDisp (baseRef e) (d1Of e)) := by
  obtain hk | hk := hk <;> rw [baseRef, hk]
  · exact translateDesc_ok (i := .adisp (regOf e) (d1Of e)) (by
      simp only [decodeDesc, descKind_toNat, hk]; rfl)
  · exact translateDesc_ok (i := .pcdisp (d1Of e)) (by
      simp only [decodeDesc, descKind_toNat, hk]; rfl)

theorem translateDesc_indexed (hk : kindOf e = 6 ∨ kindOf e = 10) (hsc : scaleField e ≠ 3) :
    ∃ sc, sizeCode sc = scaleField e ∧
      translateDesc e = .ok (seqIndexed (baseRef e) (d1Of e) (descIndex e) sc) := by
  obtain ⟨sc, hcode, hs⟩ := exists_scale hsc
  refine ⟨sc, hcode, ?_⟩
  obtain hk | hk := hk <;> rw [baseRef, hk]
  · exact translateDesc_ok (i := .aidx (regOf e) (d1Of e) (descIndex e) sc) (by
      simp only [decodeDesc, descKind_toNat, hk, hs]; rfl)
  · exact translateDesc_ok (i := .pcidx (d1Of e) (descIndex e) sc) (by
      simp only [decodeDesc, descKind_toNat, hk, hs]; rfl)

theorem translateDesc_postIndexed (hk : kindOf e = 7 ∨ kindOf e = 11) (hsc : scaleField e ≠ 3) :
    ∃ sc, sizeCode sc = scaleField e ∧
      translateDesc e = .ok (seqPostIndexed (baseRef e) (d1Of e) (descIndex e) sc (d2Of e)) := by
  obtain ⟨sc, hcode, hs⟩ := exists_scale hsc
  refine ⟨sc, hcode, ?_⟩
  obtain hk | hk := hk <;> rw [baseRef, hk]
  · exact translateDesc_ok (i := .amipost (regOf e) (d1Of e) (descIndex e) sc (d2Of e)) (by
      simp only [decodeDesc, descKind_toNat, hk, hs]; rfl)
  · exact translateDesc_ok (i := .pcmipost (d1Of e) (descIndex e) sc (d2Of e)) (by
      simp only [decodeDesc, descKind_toNat, hk, hs]; rfl)

theorem translateDesc_preIndexed (hk : kindOf e = 8 ∨ kindOf e = 12) (hsc : scaleField e ≠ 3) :
    ∃ sc, sizeCode sc = scaleField e ∧
      translateDesc e = .ok (seqPreIndexed (baseRef e) (d1Of e) (descIndex e) sc (d2Of e)) := by
  obtain ⟨sc, hcode, hs⟩ := exists_scale hsc
  refine ⟨sc, hcode, ?_⟩
  obtain hk | hk := hk <;> rw [baseRef, hk]
  · exact translateDesc_ok (i := .amipre (regOf e) (d1Of e) (descIndex e) sc (d2Of e)) (by
      simp only [decodeDesc, descKind_toNat, hk, hs]; rfl)
  · exact translateDesc_ok (i := .pcmipre (d1Of e) (descIndex e) sc (d2Of e)) (by
      simp only [decodeDesc, descKind_toNat, hk, hs]; rfl)

theorem translateDesc_literal (hk : kindOf e = 13 ∨ kindOf e = 14 ∨ kindOf e = 15) :
    translateDesc e = .ok (fetchImm (d1Of e)) := by
  obtain hk | hk | hk := hk
  · exact translateDesc_ok (i := .absw (d1Of e)) (by
      simp only [decodeDesc, descKind_toNat, hk]; rfl)
  · exact translateDesc_ok (i := .absl (d1Of e)) (by
      simp only [decodeDesc, descKind_toNat, hk]; rfl)
  · exact translateDesc_ok (i := .imm (d1Of e)) (by
      simp only [decodeDesc, descKind_toNat, hk]; rfl)

/-! ### The net effect of each kind -/

/-- Settles O28: one MOV. -/
theorem directKindsStageTheRegister : Obligations.DirectKindsStageTheRegister := by
  refine fun s e hR => ⟨fun hk => ?_, fun hk => ?_⟩
  · have ht := translateDesc_dreg hk
    exact ⟨uMov_in0_d (regOf e) ▸ ht, (computes_mov s.rf names_in0 (names_d _)).completes hR ht⟩
  · have ht := translateDesc_areg hk
    exact ⟨uMov_in0_a (regOf e) ▸ ht, (computes_mov s.rf names_in0 (names_a _)).completes hR ht⟩

/-- Settles O29: the request is the first word. -/
theorem addressIndirectFetchesAtTheRegister : Obligations.AddressIndirectFetchesAtTheRegister := by
  intro s e hR hk
  have ht := translateDesc_aind hk
  exact ⟨fetchRef_a_words (regOf e) ▸ ht, fetchesOnce (pre := []) hR ht rfl (computes_nil s.rf)
    (requests_ref s.rf (names_a (regOf e))) fun v => computes_stage _⟩

/-- Settles O36: the request is the first word. -/
theorem literalKindsFetchAtD1 : Obligations.LiteralKindsFetchAtD1 := by
  intro s e hR hk
  have ht := translateDesc_literal hk
  exact ⟨fetchImm_words (d1Of e) ▸ ht, fetchesOnce (pre := []) hR ht rfl (computes_nil s.rf)
    (requests_imm s.rf (d1Of e)) fun v => computes_stage _⟩

/-- Settles O30: the request is the first word, and the Add follows the answer. -/
theorem postIncrementFetchesThenAdds : Obligations.PostIncrementFetchesThenAdds := by
  intro s e hR hk hsz
  obtain ⟨sz, hcode, ht⟩ := translateDesc_apost hk hsz
  refine ⟨?_, ?_⟩
  · rw [ht, seqApost_words, hcode, stepBytes]
  · rw [stepBytes_eq hcode]
    exact fetchesOnce (pre := []) (post := [_] ++ [_]) hR ht (by simp [seqApost, fetchRef])
      (computes_nil s.rf) (requests_ref s.rf (names_a (regOf e)))
      fun v => (computes_stage _).append (computes_stepA _ (regOf e) (bytesOf sz))

/-- Settles O31: the Add comes before the request. -/
theorem preDecrementSubtractsThenFetches : Obligations.PreDecrementSubtractsThenFetches := by
  intro s e hR hk hsz
  obtain ⟨sz, hcode, ht⟩ := translateDesc_apre hk hsz
  refine ⟨?_, ?_⟩
  · rw [ht, seqApre_words, hcode, stepBytes]
  · rw [stepBytes_eq hcode]
    have hreq := requests_ref
      { s.rf with a := s.rf.a.set (regOf e).val (s.rf.a.get (regOf e) - bytesOf sz) }
      (names_a (regOf e))
    rw [RegFile.read, Vector.getElem_set_self] at hreq
    exact fetchesOnce (pre := [_]) hR ht rfl (computes_stepBackA s.rf (regOf e) (bytesOf sz)) hreq
      fun v => computes_stage _

/-- Settles O32: BASE, then FETCH. -/
theorem displacementFetchesAtBasePlusD1 : Obligations.DisplacementFetchesAtBasePlusD1 := by
  intro s e hR hk
  have ht := translateDesc_disp hk
  refine ⟨?_, fetchesOnce (pre := base _ _) hR ht rfl (computes_descBase s.rf e)
    (requests_ref _ names_in0) fun v => computes_stage _⟩
  rw [ht, seqDisp_words, base_baseRef_words hk (by decide) (by decide)]
  rfl

/-- Settles O33: BASE and INDEX, then FETCH. -/
theorem indexedFetchesAtBasePlusIndex : Obligations.IndexedFetchesAtBasePlusIndex := by
  intro s e hR hk hsc
  obtain ⟨sc, hcode, ht⟩ := translateDesc_indexed hk hsc
  refine ⟨?_, fetchesOnce (pre := base _ _ ++ index _ _) hR ht rfl
    ((computes_descBase s.rf e).append (computes_descIndex _ hcode))
    (requests_ref _ names_in0) fun v => computes_stage _⟩
  rw [ht, seqIndexed_words, base_baseRef_words hk (by decide) (by decide), indexRegCode_descIndex,
    hcode]
  rfl

/-- Settles O34: BASE and FETCH, then INDEX, the outer displacement and FETCH. -/
theorem postIndexedAddsIndexAfterThePointer : Obligations.PostIndexedAddsIndexAfterThePointer := by
  intro s e hR hk hsc
  obtain ⟨sc, hcode, ht⟩ := translateDesc_postIndexed hk hsc
  refine ⟨?_, fetchesTwice (pre := base _ _) (mid := [uMov .in0 .ioBuffer] ++ index _ _ ++ [_])
    (post := [_]) hR ht (by simp [seqPostIndexed, fetchRef]) (computes_descBase s.rf e)
    (requests_ref _ names_in0)
    (fun p => ((computes_stage _).append (computes_descIndex _ hcode)).append
      (computes_addImm _ names_in0 (d2Of e)))
    (fun p => requests_ref _ names_in0) fun p v => computes_stage _⟩
  rw [ht, seqPostIndexed_words, base_baseRef_words hk (by decide) (by decide),
    indexRegCode_descIndex, hcode]
  rfl

/-- Settles O35: BASE, INDEX and FETCH, then the outer displacement and FETCH. -/
theorem preIndexedAddsIndexBeforeThePointer : Obligations.PreIndexedAddsIndexBeforeThePointer := by
  intro s e hR hk hsc
  obtain ⟨sc, hcode, ht⟩ := translateDesc_preIndexed hk hsc
  refine ⟨?_, fetchesTwice (pre := base _ _ ++ index _ _) (mid := [uMov .in0 .ioBuffer] ++ [_])
    (post := [_]) hR ht (by simp [seqPreIndexed, fetchRef])
    ((computes_descBase s.rf e).append (computes_descIndex _ hcode)) (requests_ref _ names_in0)
    (fun p => (computes_stage _).append (computes_addImm _ names_in0 (d2Of e)))
    (fun p => requests_ref _ names_in0) fun p v => computes_stage _⟩
  rw [ht, seqPreIndexed_words, base_baseRef_words hk (by decide) (by decide),
    indexRegCode_descIndex, hcode]
  rfl

end Sys2Proof.Machine
end

section
/-! PROOFS. The responses to host commands (60_exceptions.md R130). -/

namespace Sys2Proof.Machine

variable {s : State} {c : Command} {x y : Response}

/-- R130's table but for its row 0: when the command `c` is refused in `s`, and with which response.
BADREF goes before BUSY (40_register_file.md R76), and FAULTED before the descriptor's own checks
(42_addressing_modes.md R98). -/
inductive State.Refuses (s : State) : Command → Response → Prop
  | descReserved {e : DescWord} (hs : s.st ≠ .faulted) (he : reservedDesc e) :
      s.Refuses (.lower e) .descReserved
  | queueFull {e : DescWord} {seq : List UopWord} (hs : s.st ≠ .faulted)
      (he : translateDesc e = .ok seq) (hfull : s.qDepth < s.q.length + seq.length) :
      s.Refuses (.lower e) .queueFull
  | faulted (e : DescWord) (hs : s.st = .faulted) : s.Refuses (.lower e) .faulted
  | busyWrite {k : BitVec 6} {z : Cell} (v : Word) (hk : refOfCode s.nTmp 0 k = some (.cell z))
      (hs : s.st = .running) : s.Refuses (.hostWrite k v) .busy
  | busyFlush (hs : s.st = .suspended) : s.Refuses .flush .busy
  | badRefRead {k : BitVec 6} (hk : ∀ z, refOfCode s.nTmp 0 k ≠ some (.cell z)) :
      s.Refuses (.hostRead k) .badRef
  | badRefWrite {k : BitVec 6} (v : Word) (hk : ∀ z, refOfCode s.nTmp 0 k ≠ some (.cell z)) :
      s.Refuses (.hostWrite k v) .badRef
  | notSuspendedResume (v : Word) (hs : s.st ≠ .suspended) : s.Refuses (.resume v) .notSuspended
  | notSuspendedFail (hs : s.st ≠ .suspended) : s.Refuses .fail .notSuspended
  | notFaulted (hs : s.st ≠ .faulted) : s.Refuses .ackFault .notFaulted

/-- A reserved descriptor has no translation (42_addressing_modes.md R99). -/
theorem not_reservedDesc_of_translateDesc {e : DescWord} {seq : List UopWord}
    (h : translateDesc e = .ok seq) : ¬ reservedDesc e := fun he => by
  obtain ⟨r, hr⟩ := decodeDesc_eq_error.mpr he
  simp [translateDesc, hr, Except.map] at h

/-! ### Refused or accepted -/

/-- The rows exclude each other: no command is refused in two ways. -/
theorem State.Refuses.unique (h : s.Refuses c x) (h' : s.Refuses c y) : x = y := by
  cases h with
  | descReserved hs he =>
    cases h' with
    | descReserved => rfl
    | queueFull _ he' => exact absurd he (not_reservedDesc_of_translateDesc he')
    | faulted _ hf => exact absurd hf hs
  | queueFull hs he =>
    cases h' with
    | descReserved _ he' => exact absurd he' (not_reservedDesc_of_translateDesc he)
    | queueFull => rfl
    | faulted _ hf => exact absurd hf hs
  | faulted _ hf =>
    cases h' with
    | descReserved hs | queueFull hs => exact absurd hf hs
    | faulted => rfl
  | busyWrite _ hk =>
    cases h' with
    | busyWrite => rfl
    | badRefWrite _ hk' => exact absurd hk (hk' _)
  | badRefWrite _ hk =>
    cases h' with
    | busyWrite _ hk' => exact absurd hk' (hk _)
    | badRefWrite => rfl
  | busyFlush | badRefRead | notSuspendedResume | notSuspendedFail | notFaulted => cases h'; rfl

/-- In `s` the command `c`, with the turns `ts` after it, is refused and changes nothing but the
reply, or no row refuses it and it is answered OK. -/
def State.AnswersByTable (s : State) (c : Command) (ts : List Turn) : Prop :=
  (∃ x, s.Refuses c x ∧ step s = .next { s with turns := ts, reply := refusal x }) ∨
    ((∀ x, ¬ s.Refuses c x) ∧ ∃ t v, step s = .next t ∧ t.reply = some ⟨.ok, v⟩)

section
variable {ts : List Turn}

theorem lower_answersByTable {e : DescWord} (hc : s.turns = .host (.lower e) :: ts) :
    s.AnswersByTable (.lower e) ts := by
  obtain ⟨hfaulted, hreserved, hlower⟩ := lowerAppendsWholeOrNothing s e ts hc
  by_cases hs : s.st = .faulted
  · exact .inl ⟨_, .faulted e hs, hfaulted hs⟩
  by_cases he : reservedDesc e
  · exact .inl ⟨_, .descReserved hs he, hreserved hs he⟩
  obtain ⟨seq, ht, hfull, hfits⟩ := hlower hs he
  by_cases hlen : s.qDepth < s.q.length + seq.length
  · exact .inl ⟨_, .queueFull hs ht hlen, hfull hlen⟩
  · refine .inr ⟨fun x hx => ?_, _, _, hfits (Nat.le_of_not_lt hlen), rfl⟩
    cases hx with
    | faulted _ hf => exact hs hf
    | descReserved _ he' => exact he he'
    | queueFull _ ht' hlen' =>
      cases ht.symm.trans ht'
      exact hlen hlen'

theorem resume_answersByTable {v : Word} (hc : s.turns = .host (.resume v) :: ts) :
    s.AnswersByTable (.resume v) ts := by
  obtain ⟨hok, hrefused⟩ := resumeStoresTheAnswerAndGoesOn s v ts hc
  by_cases hs : s.st = .suspended
  · exact .inr ⟨fun | _, .notSuspendedResume _ hne => hne hs, _, _, hok hs, rfl⟩
  · exact .inl ⟨_, .notSuspendedResume v hs, hrefused hs⟩

theorem fail_answersByTable (hc : s.turns = .host .fail :: ts) : s.AnswersByTable .fail ts := by
  obtain ⟨hok, hrefused⟩ := failAbortsWithFetchFail s ts hc
  by_cases hs : s.st = .suspended
  · exact .inr ⟨fun | _, .notSuspendedFail hne => hne hs, _, _, hok hs, rfl⟩
  · exact .inl ⟨_, .notSuspendedFail hs, hrefused hs⟩

theorem flush_answersByTable (hc : s.turns = .host .flush :: ts) :
    s.AnswersByTable .flush ts := by
  obtain ⟨hrefused, hok⟩ := flushDiscardsTheQueue s ts hc
  by_cases hs : s.st = .suspended
  · exact .inl ⟨_, .busyFlush hs, hrefused hs⟩
  · exact .inr ⟨fun | _, .busyFlush hsus => hs hsus, _, _, hok hs, rfl⟩

theorem ackFault_answersByTable (hc : s.turns = .host .ackFault :: ts) :
    s.AnswersByTable .ackFault ts := by
  obtain ⟨hok, hrefused⟩ := ackFaultClearsAndIdles s ts hc
  by_cases hs : s.st = .faulted
  · exact .inr ⟨fun | _, .notFaulted hne => hne hs, _, _, hok hs, rfl⟩
  · exact .inl ⟨_, .notFaulted hs, hrefused hs⟩

theorem hostRead_answersByTable {k : BitVec 6} (hc : s.turns = .host (.hostRead k) :: ts) :
    s.AnswersByTable (.hostRead k) ts := by
  obtain ⟨hok, hrefused⟩ := (hostPortReadsAndWritesCells s ts k).left hc
  by_cases hk : ∃ z, refOfCode s.nTmp 0 k = some (.cell z)
  · obtain ⟨z, hz⟩ := hk
    exact .inr ⟨fun | _, .badRefRead hne => hne z hz, _, _, hok z hz, rfl⟩
  · have hne := not_exists.mp hk
    exact .inl ⟨_, .badRefRead hne, hrefused hne⟩

theorem hostWrite_answersByTable {k : BitVec 6} {v : Word}
    (hc : s.turns = .host (.hostWrite k v) :: ts) : s.AnswersByTable (.hostWrite k v) ts := by
  obtain ⟨hok, hbusy, hbad⟩ := (hostPortReadsAndWritesCells s ts k).right v hc
  by_cases hk : ∃ z, refOfCode s.nTmp 0 k = some (.cell z)
  · obtain ⟨z, hz⟩ := hk
    by_cases hs : s.st = .running
    · exact .inl ⟨_, .busyWrite v hz hs, hbusy z hz hs⟩
    · obtain ⟨t, hstep, -, -, ht⟩ := hok z hz hs
      refine .inr ⟨fun x hx => ?_, t, none, hstep, congrArg State.reply ht⟩
      cases hx with
      | busyWrite _ _ hr => exact hs hr
      | badRefWrite _ hne => exact hne z hz
  · have hne := not_exists.mp hk
    exact .inl ⟨_, .badRefWrite v hne, hbad hne⟩

/-- `status_read` is accepted in every state (10_state.md R30). -/
theorem statusRead_answersByTable {sel : BitVec 2} (hc : s.turns = .host (.statusRead sel) :: ts) :
    s.AnswersByTable (.statusRead sel) ts := by
  obtain ⟨v, k, hread, -⟩ := s.taken.statusRead_word sel
  exact .inr ⟨nofun, _, some v, step_host hc, congrArg State.reply hread⟩

/-- `reset` is accepted in every state (70_reset_and_hazards.md R139). -/
theorem reset_answersByTable (hc : s.turns = .host .reset :: ts) : s.AnswersByTable .reset ts :=
  .inr ⟨nofun, _, none, step_host hc, rfl⟩

theorem host_answersByTable (hc : s.turns = .host c :: ts) : s.AnswersByTable c ts := by
  cases c with
  | lower => exact lower_answersByTable hc
  | resume => exact resume_answersByTable hc
  | fail => exact fail_answersByTable hc
  | flush => exact flush_answersByTable hc
  | ackFault => exact ackFault_answersByTable hc
  | hostRead => exact hostRead_answersByTable hc
  | hostWrite => exact hostWrite_answersByTable hc
  | statusRead => exact statusRead_answersByTable hc
  | reset => exact reset_answersByTable hc

/-- Every command is answered; a refusal changes nothing else, and is the table's. -/
theorem step_host_answers (hc : s.turns = .host c :: ts) :
    ∃ t r, step s = .next t ∧ t.reply = some r ∧
      (r.response ≠ .ok → t = { s with turns := ts, reply := some r }) ∧
      ∀ y ≠ .ok, r.response = y ↔ s.Refuses c y := by
  obtain ⟨x, hx, hstep⟩ | ⟨hno, t, v, hstep, hr⟩ := host_answersByTable hc
  · exact ⟨_, ⟨x, none⟩, hstep, rfl, fun _ => rfl, fun y _ => ⟨fun hy => hy ▸ hx, hx.unique⟩⟩
  · exact ⟨t, ⟨.ok, v⟩, hstep, hr, fun hne => absurd rfl hne,
      fun y hy => iff_of_false hy.symm (hno y)⟩

end

/-! ### The table, row by row -/

theorem refuses_descReserved :
    s.Refuses c .descReserved ↔ ∃ e, c = .lower e ∧ s.st ≠ .faulted ∧ reservedDesc e := by
  refine ⟨fun h => ?_, ?_⟩
  · cases h with
    | descReserved hs he => exact ⟨_, rfl, hs, he⟩
  · rintro ⟨e, rfl, hs, he⟩
    exact .descReserved hs he

theorem refuses_queueFull : s.Refuses c .queueFull ↔ ∃ e seq, c = .lower e ∧ s.st ≠ .faulted ∧
    translateDesc e = .ok seq ∧ s.qDepth < s.q.length + seq.length := by
  refine ⟨fun h => ?_, ?_⟩
  · cases h with
    | queueFull hs he hfull => exact ⟨_, _, rfl, hs, he, hfull⟩
  · rintro ⟨e, seq, rfl, hs, he, hfull⟩
    exact .queueFull hs he hfull

theorem refuses_faulted : s.Refuses c .faulted ↔ ∃ e, c = .lower e ∧ s.st = .faulted := by
  refine ⟨fun h => ?_, ?_⟩
  · cases h with
    | faulted e hs => exact ⟨e, rfl, hs⟩
  · rintro ⟨e, rfl, hs⟩
    exact .faulted e hs

theorem refuses_busy : s.Refuses c .busy ↔
    (∃ k v z, c = .hostWrite k v ∧ refOfCode s.nTmp 0 k = some (.cell z) ∧ s.st = .running) ∨
      (c = .flush ∧ s.st = .suspended) := by
  refine ⟨fun h => ?_, ?_⟩
  · cases h with
    | busyWrite v hk hs => exact .inl ⟨_, v, _, rfl, hk, hs⟩
    | busyFlush hs => exact .inr ⟨rfl, hs⟩
  · rintro (⟨k, v, z, rfl, hk, hs⟩ | ⟨rfl, hs⟩)
    · exact .busyWrite v hk hs
    · exact .busyFlush hs

theorem refuses_badRef : s.Refuses c .badRef ↔ ∃ k, (c = .hostRead k ∨ ∃ v, c = .hostWrite k v) ∧
    ∀ z, refOfCode s.nTmp 0 k ≠ some (.cell z) := by
  refine ⟨fun h => ?_, ?_⟩
  · cases h with
    | badRefRead hk => exact ⟨_, .inl rfl, hk⟩
    | badRefWrite v hk => exact ⟨_, .inr ⟨v, rfl⟩, hk⟩
  · rintro ⟨k, rfl | ⟨v, rfl⟩, hk⟩
    · exact .badRefRead hk
    · exact .badRefWrite v hk

theorem refuses_notSuspended :
    s.Refuses c .notSuspended ↔ ((∃ v, c = .resume v) ∨ c = .fail) ∧ s.st ≠ .suspended := by
  refine ⟨fun h => ?_, ?_⟩
  · cases h with
    | notSuspendedResume v hs => exact ⟨.inl ⟨v, rfl⟩, hs⟩
    | notSuspendedFail hs => exact ⟨.inr rfl, hs⟩
  · rintro ⟨⟨v, rfl⟩ | rfl, hs⟩
    · exact .notSuspendedResume v hs
    · exact .notSuspendedFail hs

theorem refuses_notFaulted : s.Refuses c .notFaulted ↔ c = .ackFault ∧ s.st ≠ .faulted := by
  refine ⟨fun h => ?_, ?_⟩
  · cases h with
    | notFaulted hs => exact ⟨rfl, hs⟩
  · rintro ⟨rfl, hs⟩
    exact .notFaulted hs

/-- Settles O45: a command is answered as the table says, and each refusal is one of its rows. -/
theorem refusalsAreTheTablesAndChangeNothing :
    Obligations.RefusalsAreTheTablesAndChangeNothing := by
  refine ⟨fun s c ts hc => ?_, rfl, rfl, rfl, rfl, rfl, rfl, rfl, rfl⟩
  obtain ⟨t, r, hstep, hr, hsame, htable⟩ := step_host_answers hc
  exact ⟨t, r, hstep, hr, hsame,
    (htable _ (by decide)).trans refuses_descReserved,
    (htable _ (by decide)).trans refuses_queueFull,
    (htable _ (by decide)).trans refuses_faulted,
    (htable _ (by decide)).trans refuses_busy,
    (htable _ (by decide)).trans refuses_badRef,
    (htable _ (by decide)).trans refuses_notSuspended,
    (htable _ (by decide)).trans refuses_notFaulted⟩

end Sys2Proof.Machine
end

section
/-! PROOFS. Which faults a run of translated words records, and how Faulted is left
(60_exceptions.md R123, R128). -/

namespace Sys2Proof.Machine

variable {s t : State}

/-! ### Leaving Faulted -/

/-- Settles O52: in Faulted the executor's turn passes, and every command but `ack_fault` and reset
leaves the record alone; a flush of the empty queue empties it again. -/
theorem faultedIsLeftByAckOrResetAlone : Obligations.FaultedIsLeftByAckOrResetAlone := by
  intro s t hs h
  obtain hn | he | ⟨c, ts, hc⟩ := step_turns s
  · cases (step_draws hn).symm.trans h
    exact .inl ⟨hs, rfl, rfl, id⟩
  · cases executorEffect_of_step he h with
    | waits => exact .inl ⟨hs, rfl, rfl, id⟩
    | faults hr | writes _ hr | requests hr => cases hs.symm.trans hr
  · cases hostEffect_of_step hc h with
    | answers | drawsWord | writes => exact .inl ⟨hs, rfl, rfl, id⟩
    | flushes =>
      have hst : s.taken.discard.st = .faulted := by simp [State.taken, hs]
      exact .inl ⟨hst, rfl, rfl, fun _ => rfl⟩
    | acknowledges =>
      rw [State.taken_eq hc]
      exact .inr (.inl ⟨ts, hc, rfl⟩)
    | resets => exact .inr (.inr ⟨ts, hc⟩)
    | lowers _ hne => exact absurd hs hne
    | resumes _ hsus | failsFetch hsus => cases hs.symm.trans hsus

/-! ### The translator's words pass the executor's check -/

/-- The word passes `checkUop` (41_micro_instructions.md R78) whatever N_TMP is. -/
def PassesCheck (w : UopWord) : Prop := ∀ n, checkUop n w = none

section
variable {r r' : RefCode} {c c' : Cell}

theorem Names.ne_none (h : Names r c) (n : Nat) (lit : Word) : decodeRef n lit r ≠ none := by
  simp [h n lit]

theorem Names.ne_imm (h : Names r c) : r ≠ .imm := by
  rintro rfl
  cases h 0 0

theorem passesCheck_of_uopFault {op : OpCode} {u : Uop} (hu : u.wf = true)
    (h : ∀ n, uopFault n op u = none) : PassesCheck (encodeUop op u) := fun n => by
  rw [checkUop_eq_uopFault n (encodeUop_op op u), uopFields_encodeUop op hu, h n]

theorem uop_wf_of_refs {u : Uop} (ha : u.ra.wf = true) (hb : u.rb.wf = true) : u.wf = true :=
  Bool.and_eq_true_iff.mpr ⟨ha, hb⟩

theorem passesCheck_uMov (h : Names r c) (h' : Names r' c') : PassesCheck (uMov r r') :=
  passesCheck_of_uopFault (uop_wf_of_refs h.wf h'.wf) fun n => by
    simp [uopFault, h.ne_none, h'.ne_none, h.ne_imm]

theorem passesCheck_uAdd (h : Names r c) (h' : Names r' c') : PassesCheck (uAdd r r') :=
  passesCheck_of_uopFault (uop_wf_of_refs h.wf h'.wf) fun n => by
    simp [uopFault, h.ne_none, h'.ne_none, h.ne_imm]

theorem passesCheck_uAddImm (h : Names r c) (v : Word) : PassesCheck (uAddImm r v) :=
  passesCheck_of_uopFault (uop_wf_of_refs h.wf rfl) fun n => by
    simp [uopFault, h.ne_none, h.ne_imm]

theorem passesCheck_uScale (h : Names r c) (sz : OperandSize) : PassesCheck (uScale r sz) :=
  passesCheck_of_uopFault (uop_wf_of_refs h.wf rfl) fun n => by
    have hsz : sz.code ≠ 3#2 := by cases sz <;> decide
    simp [uopFault, hsz, h.ne_none, h.ne_imm]

theorem passesCheck_uReq (h : Names r c) : PassesCheck (uReq r) :=
  passesCheck_of_uopFault (uop_wf_of_refs h.wf rfl) fun n => by simp [uopFault, h.ne_none]

theorem passesCheck_uReqImm (v : Word) : PassesCheck (uReqImm v) :=
  passesCheck_of_uopFault rfl fun n => by simp [uopFault]

theorem passesCheck_stage (h : Names r c) : PassesCheck (uMov .in0 r) :=
  passesCheck_uMov names_in0 h

theorem fetchRef_passesCheck (h : Names r c) : ∀ w ∈ fetchRef r, PassesCheck w := by
  simpa [fetchRef] using ⟨passesCheck_uReq h, passesCheck_stage names_ioBuffer⟩

theorem fetchImm_passesCheck (v : Word) : ∀ w ∈ fetchImm v, PassesCheck w := by
  simpa [fetchImm] using ⟨passesCheck_uReqImm v, passesCheck_stage names_ioBuffer⟩

theorem base_passesCheck (h : Names r c) (d : Word) : ∀ w ∈ base r d, PassesCheck w := by
  simpa [base] using ⟨passesCheck_stage h, passesCheck_uAddImm names_in0 d⟩

theorem names_index (x : IndexReg) : ∃ c, Names x.ref c := by
  cases x with
  | d n => exact ⟨_, names_d n⟩
  | a n => exact ⟨_, names_a n⟩

theorem index_passesCheck (x : IndexReg) (sc : OperandSize) :
    ∀ w ∈ index x sc, PassesCheck w := by
  obtain ⟨c, hx⟩ := names_index x
  simpa [index] using ⟨passesCheck_uMov names_in1 hx, passesCheck_uScale names_in1 sc,
    passesCheck_uAdd names_in0 names_in1⟩

variable (h : Names r c) (d1 : Word) (x : IndexReg) (sc : OperandSize) (d2 : Word)
include h

theorem seqDisp_passesCheck : ∀ w ∈ seqDisp r d1, PassesCheck w :=
  List.forall_mem_append.mpr ⟨base_passesCheck h d1, fetchRef_passesCheck names_in0⟩

theorem seqIndexed_passesCheck : ∀ w ∈ seqIndexed r d1 x sc, PassesCheck w := by
  simpa only [seqIndexed, List.forall_mem_append] using
    ⟨⟨base_passesCheck h d1, index_passesCheck x sc⟩, fetchRef_passesCheck names_in0⟩

theorem seqPostIndexed_passesCheck : ∀ w ∈ seqPostIndexed r d1 x sc d2, PassesCheck w := by
  simpa only [seqPostIndexed, List.forall_mem_append, List.forall_mem_singleton] using
    ⟨⟨⟨⟨base_passesCheck h d1, fetchRef_passesCheck names_in0⟩, index_passesCheck x sc⟩,
      passesCheck_uAddImm names_in0 d2⟩, fetchRef_passesCheck names_in0⟩

theorem seqPreIndexed_passesCheck : ∀ w ∈ seqPreIndexed r d1 x sc d2, PassesCheck w := by
  simpa only [seqPreIndexed, List.forall_mem_append, List.forall_mem_singleton] using
    ⟨⟨⟨⟨base_passesCheck h d1, index_passesCheck x sc⟩, fetchRef_passesCheck names_in0⟩,
      passesCheck_uAddImm names_in0 d2⟩, fetchRef_passesCheck names_in0⟩

end

/-- Every lowering is made of sub-sequences whose references all name a cell. -/
theorem loweringOf_passesCheck (i : Instr) : ∀ w ∈ loweringOf i, PassesCheck w := by
  cases i with
  | zero | set | mov | add | scale | reqmem => exact List.forall_mem_nil _
  | dreg n => exact List.forall_mem_singleton.mpr (passesCheck_stage (names_d n))
  | areg n => exact List.forall_mem_singleton.mpr (passesCheck_stage (names_a n))
  | aind n => exact fetchRef_passesCheck (names_a n)
  | apost n sz =>
    exact List.forall_mem_append.mpr ⟨fetchRef_passesCheck (names_a n),
      List.forall_mem_singleton.mpr (passesCheck_uAddImm (names_a n) _)⟩
  | apre n sz =>
    exact List.forall_mem_append.mpr ⟨List.forall_mem_singleton.mpr
      (passesCheck_uAddImm (names_a n) _), fetchRef_passesCheck (names_a n)⟩
  | adisp n d1 => exact seqDisp_passesCheck (names_a n) d1
  | aidx n d1 x sc => exact seqIndexed_passesCheck (names_a n) d1 x sc
  | amipost n d1 x sc d2 => exact seqPostIndexed_passesCheck (names_a n) d1 x sc d2
  | amipre n d1 x sc d2 => exact seqPreIndexed_passesCheck (names_a n) d1 x sc d2
  | pcdisp d1 => exact seqDisp_passesCheck names_pc d1
  | pcidx d1 x sc => exact seqIndexed_passesCheck names_pc d1 x sc
  | pcmipost d1 x sc d2 => exact seqPostIndexed_passesCheck names_pc d1 x sc d2
  | pcmipre d1 x sc d2 => exact seqPreIndexed_passesCheck names_pc d1 x sc d2
  | absw d1 | absl d1 | imm d1 => exact fetchImm_passesCheck d1

theorem Emitted.passesCheck {w : UopWord} (h : Emitted w) : PassesCheck w := by
  obtain ⟨i, hw⟩ := h
  exact loweringOf_passesCheck i w hw

/-! ### The faults of a run -/

/-- With the translator's words queued, the executor's step leaves the fault record. -/
theorem step_executor_fcode (hQ : QueueEmitted s) (he : s.executorNext) (h : step s = .next t) :
    t.fcode = s.fcode := by
  cases executorEffect_of_step he h with
  | waits | writes | requests => rfl
  | @faults w rest f hs hq =>
    have hw : Emitted w := hQ w (by simp [hq])
    obtain ⟨t', ht', -, -, hf, -⟩ :=
      (executorFaultsAreCheckUops s w rest he hs hq).right (hw.passesCheck s.nTmp)
    cases ht'.symm.trans h
    exact hf

/-- A host command leaves FCODE, records FETCH_FAIL (`fail`), or clears it (`ack_fault`, reset). -/
theorem HostEffect.fcode_cases {c : Command} (he : HostEffect s c t) :
    t.fcode = s.fcode ∨ t.fcode = .fetchFail ∨ t.fcode = .none := by
  cases he with
  | answers | drawsWord | lowers | resumes | flushes | writes => exact .inl rfl
  | failsFetch => exact .inr (.inl rfl)
  | acknowledges | resets => exact .inr (.inr rfl)

/-- Settles O51: the translator's words all pass the executor's check, so a step records no fault but
the host's FETCH_FAIL. -/
theorem translatorOutputNeverFaults : Obligations.TranslatorOutputNeverFaults := by
  intro s t hI hN h
  unfold NoExecutorFault at *
  obtain hn | he | ⟨c, ts, hc⟩ := step_turns s
  · cases (step_draws hn).symm.trans h
    exact hN
  · rwa [step_executor_fcode hI.queue he h]
  · obtain hf | hf | hf := (hostEffect_of_step hc h).fcode_cases
    · rwa [hf]
    · exact .inr hf
    · exact .inl hf

end Sys2Proof.Machine
end

section
/-! PROOFS. Reset, and the hazard of a `host_write` while a fetch is pending
(70_reset_and_hazards.md R139, R146). -/

namespace Sys2Proof.Machine

/-! ### `reset()` and what follows it -/

section
variable {s : State} {c : Command} {ts : List Turn}

theorem step_reset (hc : s.turns = .host .reset :: ts) :
    step s = .next (State.resetCommand { s with turns := ts }) := State.taken_eq hc ▸ step_host hc

/-- A `resume` or `fail` with no fetch pending is refused (41_micro_instructions.md R93, R94). -/
theorem step_answer_notSuspended (hs : s.st ≠ .suspended) (ha : (∃ v, c = .resume v) ∨ c = .fail)
    (hc : s.turns = .host c :: ts) :
    step s = .next { s with turns := ts, reply := refusal .notSuspended } := by
  obtain ⟨v, rfl⟩ | rfl := ha
  · exact (resumeStoresTheAnswerAndGoesOn s v ts hc).right hs
  · exact (failAbortsWithFetchFail s ts hc).right hs

end

/-- Settles O43: the state after reset is Idle, so it has no fetch to answer. -/
theorem resetCommandReachesIdle : Obligations.ResetCommandReachesIdle := by
  intro s ts hc
  refine ⟨_, step_reset hc, rfl, rfl, rfl, rfl, rfl, rfl, s.resetBlock_nTmp, fun c us ha hts => ?_⟩
  exact step_answer_notSuspended (by simp [State.resetCommand]) ha hts

/-! ### A `host_write` to IOBuffer while Suspended -/

section
variable {s : State} (v w : Word)

/-- The second of two writes to one cell is the one that stays. -/
theorem RegFile.write_write_self (rf : RegFile) (c : Cell) :
    (rf.write c w).write c v = rf.write c v := by
  cases c with
  | d | a | tmp => simp [RegFile.write]
  | pc | ccr | in0 | in1 | ioBuffer => rfl

theorem State.write_write_self (c : Cell) : (s.write c w).write c v = s.write c v := by
  simp [State.write, RegFile.write_write_self]

/-- Code 0x14 names IOBuffer, however many temporaries there are (30_encoding.md R55). -/
theorem refOfCode_ioBuffer (n : Nat) (lit : Word) :
    refOfCode n lit 0x14 = some (.cell .ioBuffer) := rfl

theorem step_hostWrite_ioBuffer {ts : List Turn} (hs : s.st ≠ .running)
    (hc : s.turns = .host (.hostWrite 0x14 w) :: ts) :
    step s = .next ((State.write { s with turns := ts } .ioBuffer w).answer .ok) := by
  have hstep : step s = .next (State.hostWrite { s with turns := ts } 0x14 w) :=
    State.taken_eq hc ▸ step_host hc
  exact hstep.trans (congrArg _ (State.hostWrite_cell w (refOfCode_ioBuffer _ _) hs))

/-- `resume` writes IOBuffer and the reply again. -/
theorem State.resume_write_ioBuffer (hs : s.st = .suspended) (r : Response) :
    ((s.write .ioBuffer w).answer r).resume v = s.resume v :=
  calc
    _ = (((s.write .ioBuffer w).write .ioBuffer v).proceed).answer .ok := resume_suspended v hs
    _ = ((s.write .ioBuffer v).proceed).answer .ok := by rw [write_write_self]
    _ = s.resume v := (resume_suspended v hs).symm

end

/-- Settles O59: the `host_write` is accepted, and `resume` overwrites what it wrote. -/
theorem resumeOverwritesAHostWriteToIoBuffer :
    Obligations.ResumeOverwritesAHostWriteToIoBuffer := by
  intro s w v hs
  have hwrite := step_hostWrite_ioBuffer w
    (s := { s with turns := [.host (.hostWrite 0x14 w), .host (.resume v)] }) (by simp [hs]) rfl
  rw [runSteps_succ 1 hwrite, runSteps_succ 0 (step_resume rfl), runSteps_succ 0 (step_resume rfl)]
  exact congrArg _ (State.resume_write_ioBuffer (s := { s with turns := [] }) v w hs .ok)

end Sys2Proof.Machine
end
